-- ==== Sys2Proof/Word.lean ====
section
/-! DEFINITION. The two word types of the block's ports (10_state.md R25, R26). -/

namespace Sys2Proof

/-- A byte, bit 7 the most significant (R9): a Posit8, or REGIME's signed scale. -/
abbrev Byte := BitVec 8

/-- The 64-bit word of a double: sign bit 63, exponent 62:52, trailing significand 51:0 (R26). -/
abbrev Double := BitVec 64

end Sys2Proof
end

