-- ==== Sys2Proof/Config.lean ====
section
/-! DEFINITION. What an implementation of the block fixes: the two named parameters that rules read
(00_scope.md R8, 92_eei_decisions.md, "Open parameters, in one place").
They are data a model takes as an argument; each field admits exactly the legal values.
`P_SIGMOID_SHIFT` is fixed by R160 (log entry 12) and no rule reads `LATENCY` (R194, log entry 15). -/

namespace Sys2Proof

/-- The parameters of one build of the block.
DESIGN CHOICE (the spec's decisions D9 and D12, log entries 4 and 5). -/
structure Params where
  /-- Bit 63 of `P_NAR_DOUBLE` (R82): any sign is legal. -/
  narSign : Bool
  /-- Bits 51:0 of `P_NAR_DOUBLE` (R82): 0 for an infinity, anything else for a NaN.
  Its exponent field is 2047 for every legal value, so it is no field here. -/
  narTrailing : BitVec 52
  /-- Which of its two legal values `P_ZERO_NAR` has (R141, R151): `true` for 0x80, `false` for 0x00. -/
  zeroNarIsSentinel : Bool
  deriving DecidableEq, Repr

/-- The defaults the spec gives: +infinity (0x7FF0000000000000) and 0x80 (R8). -/
def Params.default : Params :=
  { narSign := false, narTrailing := 0, zeroNarIsSentinel := true }

end Sys2Proof
end

