-- ==== Sys2Proof/Syntax.lean ====
section
/-! DEFINITION. The nine operations (30_encoding.md R57) with the operands each one reads (R56), and
the request that carries them on the input ports (10_state.md R25).
DESIGN CHOICE (log entry 22): codes, ports and the side operand are the spec's decisions D2, D3. -/

namespace Sys2Proof

/-- One invocation's operation and operands: one constructor per row of the operation table (R57). -/
inductive Instr where
  /-- DECODE a (R70). -/
  | decode (a : Byte)
  /-- P2D a (R80). -/
  | p2d (a : Byte)
  /-- D2P d (R84): the operand is the 64-bit side operand. -/
  | d2p (d : Double)
  /-- REGIME k (R100): k is the byte on port `a` read as a two's-complement integer (R58).
  DESIGN CHOICE (log entry 23): an integer here, in the byte's range when well formed. -/
  | regime (k : Int)
  /-- ADD a, b (R130). -/
  | add (a b : Byte)
  /-- SUB a, b (R137). -/
  | sub (a b : Byte)
  /-- MUL a, b (R140). -/
  | mul (a b : Byte)
  /-- DIV a, b (R150): a is the dividend, b the divisor. -/
  | div (a b : Byte)
  /-- SIGMOID a (R160). -/
  | sigmoid (a : Byte)
  deriving DecidableEq, Repr

/-- One value on every input port (R25): the 20-bit request word's three fields and the side operand (R56). -/
structure Request where
  op : BitVec 4
  a : Byte
  b : Byte
  d : Double
  deriving DecidableEq, Repr

end Sys2Proof
end

