-- ==== Sys2Proof/WellFormed.lean ====
section
/-! DEFINITION. Which instructions and which requests are well formed. -/

namespace Sys2Proof

/-- An instruction that some request encodes. Every byte and every double is a legal operand (R25, R60);
REGIME's scale is one that fits the byte of port `a` (R58, R100). -/
def Instr.wellFormed : Instr → Bool
  | .decode _ => true
  | .p2d _ => true
  | .d2p _ => true
  | .regime k => decide (-128 ≤ k ∧ k ≤ 127)
  | .add _ _ => true
  | .sub _ _ => true
  | .mul _ _ => true
  | .div _ _ => true
  | .sigmoid _ => true

/-- A request whose operation code is not reserved (R57, R59); the other ports may hold anything (R60). -/
def Request.wellFormed (r : Request) : Bool := decide (r.op.toNat ≤ 8)

end Sys2Proof
end

