-- ==== Sys2Proof/Decode.lean ====
section
/-! DEFINITION. From the input ports to an operation and back (30_encoding.md R56 to R59). -/

namespace Sys2Proof

/-- Why a request selects no operation. -/
inductive DecodeRefusal where
  /-- The operation code is one of 0x9 to 0xF (R59). -/
  | reservedOp (op : BitVec 4)
  deriving DecidableEq, Repr

/-- The operation a request selects, with the operands its format reads (R56, R57, R58).
A field the operation does not read is not looked at (R25). -/
def decode (r : Request) : Except DecodeRefusal Instr :=
  match r.op.toNat with
  | 0x0 => .ok (.decode r.a)
  | 0x1 => .ok (.p2d r.a)
  | 0x2 => .ok (.d2p r.d)
  | 0x3 => .ok (.regime r.a.toInt)
  | 0x4 => .ok (.add r.a r.b)
  | 0x5 => .ok (.sub r.a r.b)
  | 0x6 => .ok (.mul r.a r.b)
  | 0x7 => .ok (.div r.a r.b)
  | 0x8 => .ok (.sigmoid r.a)
  | _ => .error (.reservedOp r.op)

/-- The request that invokes an operation (R56, R57).
DESIGN CHOICE (log entry 14): a field the format marks x is written as zero, as in 95_test_vectors.md. -/
def encode : Instr → Request
  | .decode a => { op := 0x0, a := a, b := 0, d := 0 }
  | .p2d a => { op := 0x1, a := a, b := 0, d := 0 }
  | .d2p d => { op := 0x2, a := 0, b := 0, d := d }
  | .regime k => { op := 0x3, a := BitVec.ofInt 8 k, b := 0, d := 0 }
  | .add a b => { op := 0x4, a := a, b := b, d := 0 }
  | .sub a b => { op := 0x5, a := a, b := b, d := 0 }
  | .mul a b => { op := 0x6, a := a, b := b, d := 0 }
  | .div a b => { op := 0x7, a := a, b := b, d := 0 }
  | .sigmoid a => { op := 0x8, a := a, b := 0, d := 0 }

/-- The request word `{op[3:0], a[7:0], b[7:0]}`: op in bits 19:16, a in 15:8, b in 7:0 (R56). -/
def requestWord (r : Request) : BitVec 20 := r.op ++ r.a ++ r.b

/-- The request with a given word and side operand: the inverse of `requestWord` (R56). -/
def requestOfWord (w : BitVec 20) (d : Double) : Request :=
  { op := w.extractLsb' 16 4, a := w.extractLsb' 8 8, b := w.extractLsb' 0 8, d := d }

/-- The request whose bits, numbered as spec/opcode_table.json numbers them, are the low `nbits` bits of `w`;
the side operand, to which the table gives no bits, is zero. -/
def tableRequest (nbits w : Nat) : Request :=
  requestOfWord (BitVec.ofNat 20 (w % 2 ^ nbits)) 0

/-- The operation the decoder reads from a table word.
DESIGN CHOICE (log entry 13): a request has 20 bits (R56), so a word with a bit set above them is no request. -/
def decodeTableWord (nbits w : Nat) : Option Instr :=
  if w % 2 ^ nbits < 2 ^ 20 then
    match decode (tableRequest nbits w) with
    | .ok i => some i
    | .error _ => none
  else none

end Sys2Proof
end

