-- ==== Sys2Proof/Machine/State.lean ====
section
/-! DEFINITION. The ports of the block and the parameters of its build.
The block keeps nothing between invocations (10_state.md R20): the state is what one invocation
presents, and what the last one drove. DESIGN CHOICE (log entry 1).
DESIGN CHOICE (log entry 21): the parts of a machine that the spec says do not exist have no field. -/

namespace Sys2Proof.Machine

/-- The decoded group, at its port widths (R27). -/
structure DecodedValue where
  /-- `dv_sign`. -/
  sign : Bool
  /-- `dv_k`, two's complement. -/
  k : BitVec 4
  /-- `dv_frac`, right-aligned. -/
  frac : BitVec 5
  /-- `dv_fl`. -/
  fl : BitVec 3
  /-- `dv_zero`: the operand was 0x00. -/
  isZero : Bool
  /-- `dv_inf`: the operand was 0x80. -/
  isInfinity : Bool
  deriving DecidableEq, Repr

/-- The regime group, at its port widths (R28). -/
structure RegimeValue where
  /-- `rg_pat`, right-aligned. -/
  pat : BitVec 7
  /-- `rg_len`, the terminator counted. -/
  len : BitVec 3
  /-- `rg_fl`. -/
  fl : BitVec 3
  deriving DecidableEq, Repr

/-- The result of an invocation: exactly one group of output ports (R24, R29, R30). -/
inductive Result where
  /-- `y[7:0]`: ADD, SUB, MUL, DIV, D2P, SIGMOID. -/
  | posit (y : Byte)
  /-- `q[63:0]`: P2D. -/
  | double (q : Double)
  /-- DECODE's group. -/
  | decoded (dv : DecodedValue)
  /-- REGIME's group. -/
  | regime (rg : RegimeValue)
  deriving DecidableEq, Repr

/-- The machine between two invocations. No field carries a value from one invocation into the result
of another (R20); there is no register, program counter, flag or memory (R21, R22, R23, R40). -/
structure State where
  /-- Input port `op` (R25). -/
  op : BitVec 4
  /-- Input port `a` (R25). -/
  a : Byte
  /-- Input port `b` (R25). -/
  b : Byte
  /-- Input port `d` (R25, R26). -/
  d : Double
  /-- The build's parameters (R8); no invocation changes them. -/
  params : Params
  /-- The group driven by the last invocation; `none` while none has been made, since an undriven group
  has no value (R30). -/
  out : Option Result
  deriving DecidableEq, Repr

/-- The faults of the block: there are none, because no invocation of an admitted operation has a fault
outcome (60_exceptions.md R170). -/
inductive Fault
  deriving DecidableEq, Repr

/-- Why a step has no meaning. -/
inductive Refusal where
  /-- Raised by exec's arm of an operation that has no meaning yet; no arm does. Safe: nothing is claimed. -/
  | notModelled (mnemonic : String)
  /-- Raised by `step` when `op` is a reserved code 0x9 to 0xF, which selects nothing (R59).
  Safe: the spec says that no claim holds of such an invocation. -/
  | reservedOp (op : BitVec 4)
  deriving DecidableEq, Repr

/-- Before the first invocation. The spec has no reset and names no reset value (R32, R190).
DESIGN CHOICE (log entries 2, 3): the input ports read zero and nothing has been driven yet;
the parameters are at the spec's defaults (log entries 4, 5). -/
def State.reset : State :=
  { op := 0, a := 0, b := 0, d := 0, params := Params.default, out := none }

end Sys2Proof.Machine
end

