-- ==== Sys2Proof/Machine/Ops.lean ====
section
/-! DEFINITION. The primitives on bytes (00_scope.md R10 to R12), the double's layout (R26), and the named
operations over the ports.
The block has no memory, no register and no exception (R21, R40, R170, R174, R175): there is no memory
operation here, and neither taking an exception nor returning from one exists to be modelled. -/

namespace Sys2Proof.Machine

/-- Two's complement of a byte, wrapping within 8 bits (R11). -/
def neg8 (x : Byte) : Byte := ~~~x + 1

/-- How many of the bits `n - 1` down to 0 of `x` precede, from the top, the highest 1 among them. -/
def leadingZerosBelow (x : Byte) : Nat → Nat
  | 0 => 0
  | n + 1 => if x.getLsbD n then 0 else leadingZerosBelow x n + 1

/-- Leading-zero count of a byte (R12); 8 for the byte 0, which no rule evaluates.
DESIGN CHOICE (log entry 19): the spec's decision D8. -/
def clz8 (x : Byte) : Nat := leadingZerosBelow x 8

/-- Arithmetic right shift of a byte: the vacated high bits are copies of bit 7 (R10). -/
def asr8 (x : Byte) (n : Nat) : Byte := x.sshiftRight n

/-- The double with sign S, biased exponent E and trailing significand T (R26).
PRESUMED (log entry 9): the layout of binary64. -/
def dbl (S : Bool) (E : Nat) (T : Nat) : Double :=
  BitVec.ofBool S ++ BitVec.ofNat 11 E ++ BitVec.ofNat 52 T

/-- Bit 63 of a double (R26). -/
def dblSign (d : Double) : Bool := d.getLsbD 63

/-- Bits 62:52 of a double (R26). -/
def dblExp (d : Double) : Nat := (d.extractLsb' 52 11).toNat

/-- Bits 51:0 of a double (R26). -/
def dblTrailing (d : Double) : Nat := (d.extractLsb' 0 52).toNat

/-- The parameter `P_NAR_DOUBLE`: a double whose exponent field is 2047 (R82). -/
def narDouble (P : Params) : Double := dbl P.narSign 2047 P.narTrailing.toNat

/-- The parameter `P_ZERO_NAR`: 0x80 or 0x00 (R141, R151). -/
def zeroNar (P : Params) : Byte := if P.zeroNarIsSentinel then 0x80 else 0x00

/-- What the input ports carry: the invocation to make (R24, R25). -/
def State.request (s : State) : Request := { op := s.op, a := s.a, b := s.b, d := s.d }

/-- The dispatcher puts a request on the input ports (R22, R25); nothing else changes. -/
def State.present (s : State) (r : Request) : State :=
  { s with op := r.op, a := r.a, b := r.b, d := r.d }

/-- The end of every invocation: it drives exactly one group (R29, R30) and keeps nothing else (R20). -/
def drive (r : Result) (s : State) : Host.Outcome State Fault Refusal :=
  .next { s with out := some r }

/-- How a step answers a request that selects no operation (R59). -/
def refuse : DecodeRefusal → Host.Outcome State Fault Refusal
  | .reservedOp op => .refused (.reservedOp op)

end Sys2Proof.Machine
end

