-- ==== Sys2Proof/Machine/Flags.lean ====
section
/-! DEFINITION. The block has no flags and no condition codes (10_state.md R23): no operation sets one.
What other hardware would flag is told from the byte itself; the tests on it that the rules use stand here. -/

namespace Sys2Proof.Machine

/-- The encoding of exact zero (R51). -/
def zero8 : Byte := 0x00

/-- The infinity/not-a-number sentinel (R51), `NAR` in R8. -/
def nar : Byte := 0x80

/-- The largest positive encoding, 64 (R8). -/
def maxPos : Byte := 0x7F

/-- The smallest positive encoding, 2^-6 (R8). -/
def minPos : Byte := 0x01

/-- One of the 254 encodings of a finite non-zero value (R51). -/
def isFiniteNonzero (v : Byte) : Bool := v != zero8 && v != nar

/-- The sign bit of an encoding (R9, R50). -/
def signBit (v : Byte) : Bool := v.getLsbD 7

end Sys2Proof.Machine
end

