-- ==== Sys2Proof/Machine/Operands.lean ====
section
/-! DEFINITION. The one operand form of the block beside plain bytes and doubles (30_encoding.md R58):
a Posit8 split into sign, scale and fraction by the decomposer (40_decomposer.md R71 to R73), and the
operand preparation of the arithmetic (43_arith_common.md R111). -/

namespace Sys2Proof.Machine

/-- What the decomposer finds in a byte, as mathematical integers (R9); R27 gives the ports that hold them. -/
structure Fields where
  sign : Bool
  k : Int
  fraction : Nat
  fracLength : Nat
  isZero : Bool
  isInfinity : Bool
  deriving DecidableEq, Repr

/-- The magnitude byte: the encoding after sign removal (R14, R50). -/
def magnitude (v : Byte) : Byte := if signBit v then neg8 v else v

/-- Whether the regime of a magnitude byte is a run of ones, and how long the run is (R71, R74). -/
def regimeRun (m : Byte) : Bool × Nat :=
  let t := m <<< 1
  let z := clz8 t
  if z = 0 then (true, clz8 (~~~t)) else (false, z)

/-- The decomposer: zero (R72), the sentinel (R73), and the general path (R71). -/
def decodeFields (v : Byte) : Fields :=
  if v = zero8 then
    { sign := false, k := 0, fraction := 0, fracLength := 0, isZero := true, isInfinity := false }
  else if v = nar then
    { sign := true, k := 0, fraction := 0, fracLength := 0, isZero := false, isInfinity := true }
  else
    let m := magnitude v
    let ones := (regimeRun m).1
    let run := (regimeRun m).2
    let k : Int := if ones then (run : Int) - 1 else -(run : Int)
    let fl := if run < 7 then 8 - (run + 2) else 0
    let frac := if 0 < fl then m.toNat &&& ((1 <<< fl) - 1) else 0
    { sign := signBit v, k := k, fraction := frac, fracLength := fl, isZero := false, isInfinity := false }

/-- A prepared operand (R111). -/
structure Prepared where
  /-- s. -/
  sign : Bool
  /-- k. -/
  k : Int
  /-- M, the significand with the hidden bit restored. -/
  sig : Nat
  /-- fl, how many fraction bits M has. -/
  fl : Nat
  /-- m, the magnitude byte. -/
  mag : Byte
  deriving DecidableEq, Repr

/-- Operand preparation of a finite non-zero byte (R111). -/
def prep (v : Byte) : Prepared :=
  let f := decodeFields v
  { sign := f.sign, k := f.k, sig := f.fraction ||| (1 <<< f.fracLength), fl := f.fracLength, mag := magnitude v }

end Sys2Proof.Machine
end

