-- ==== Sys2Proof/Machine/RegimeEncoder.lean ====
section
/-! DEFINITION. The regime encoder unit: REGIME (42_regime_encoder.md R100 to R105). -/

namespace Sys2Proof.Machine

/-- A regime field as mathematical integers: pattern, length with terminator, fraction length. -/
structure RegimeField where
  pat : Nat
  len : Nat
  fl : Nat
  deriving DecidableEq, Repr

/-- Pattern and length of the regime of a scale, first match wins (R100 to R104). -/
def regimePattern (k : Int) : Nat × Nat :=
  if 6 ≤ k then (0x7F, 7)
  else if k ≤ -7 then (0x00, 7)
  else if 0 ≤ k then (((1 <<< (k + 1).toNat) - 1) <<< 1, (k + 2).toNat)
  else (1, (-k + 1).toNat)

/-- The regime encoder, for every integer scale (R100); the fraction length is floored at 0 (R105). -/
def regimeEncode (k : Int) : RegimeField :=
  { pat := (regimePattern k).1, len := (regimePattern k).2, fl := 7 - (regimePattern k).2 }

/-- The regime field on its ports (R28): it fits them (R104).
DEDUCED (log entry 11): narrowing loses nothing. -/
def regimePorts (f : RegimeField) : RegimeValue :=
  { pat := BitVec.ofNat 7 f.pat, len := BitVec.ofNat 3 f.len, fl := BitVec.ofNat 3 f.fl }

/-- REGIME k (R100). -/
def execRegime (k : Int) (s : State) : Host.Outcome State Fault Refusal :=
  drive (.regime (regimePorts (regimeEncode k))) s

end Sys2Proof.Machine
end

