-- ==== Sys2Proof/Machine/Codec.lean ====
section
/-! DEFINITION. The codec units: P2D and D2P (41_codec.md R80 to R92). -/

namespace Sys2Proof.Machine

/-- The double of a Posit8: zero (R81), the sentinel (R82), the general case in binary64 terms (R83).
PRESUMED (log entry 9): the layout of binary64. -/
def p2d (P : Params) (v : Byte) : Double :=
  if v = zero8 then 0
  else if v = nar then narDouble P
  else
    let f := decodeFields v
    dbl f.sign (f.k + 1023).toNat (f.fraction <<< (52 - f.fracLength))

/-- The packed magnitude of a double with scale e = E - 1023 in -6..5 and trailing significand T (R92, line 5). -/
def packScale (e : Int) (T : Nat) : Nat :=
  let rl := if 0 ≤ e then (e + 1).toNat else (-e).toNat
  let fl := 6 - rl
  let regimeBits := if 0 ≤ e then ((1 <<< rl) - 1) <<< 1 else 1
  (regimeBits <<< fl) + (T >>> (52 - fl))

/-- A magnitude byte with a sign applied: two's complement if negative (R89, R119). -/
def withSign (s : Bool) (m : Byte) : Byte := if s then neg8 m else m

/-- The Posit8 of a double, on its bits, first matching line (R92).
DEDUCED (log entry 10): the spec derives this form from the staircase of R84 to R90.
DESIGN CHOICE (log entry 18): it truncates, by the spec's decision D11. -/
def d2p (d : Double) : Byte :=
  let S := dblSign d
  let E := dblExp d
  let T := dblTrailing d
  let e : Int := (E : Int) - 1023
  if E = 0 ∧ T = 0 then zero8
  else if E = 2047 then nar
  else if E ≠ 0 ∧ 6 ≤ e then withSign S maxPos
  else if E = 0 ∨ e < -6 ∨ (e = -6 ∧ T = 0) then withSign S minPos
  else withSign S (BitVec.ofNat 8 (packScale e T))

/-- P2D a (R80). -/
def execP2d (a : Byte) (s : State) : Host.Outcome State Fault Refusal :=
  drive (.double (p2d s.params a)) s

/-- D2P d (R84). -/
def execD2p (d : Double) (s : State) : Host.Outcome State Fault Refusal :=
  drive (.posit (d2p d)) s

end Sys2Proof.Machine
end

