-- ==== Sys2Proof/Machine/RoundPack.lean ====
section
/-! DEFINITION. The back end shared by ADD, SUB, MUL and DIV (43_arith_common.md R112 to R120).
DESIGN CHOICE (log entry 7): rounding follows the spec's decisions D13 to D16. -/

namespace Sys2Proof.Machine

/-- An exact intermediate result (R112): sign, scale, normalised significand with `width` fraction bits,
and whether the exact result has non-zero bits below the significand's last one. -/
structure Unrounded where
  /-- s. -/
  sign : Bool
  /-- k. -/
  k : Int
  /-- M. -/
  sig : Nat
  /-- W. -/
  width : Nat
  /-- st. -/
  sticky : Bool
  deriving DecidableEq, Repr

/-- Narrowing (R116) and rounding to nearest, ties to the even byte (R117):
the regime and the top `fl` bits of F, plus one where the `sh` discarded bits say so. -/
def narrowRound (pat fl F sh : Nat) (sticky : Bool) : Nat :=
  let keep := F >>> sh
  let disc := F &&& ((1 <<< sh) - 1)
  let mag := (pat <<< fl) + keep
  if 0 < sh then
    let half := 1 <<< (sh - 1)
    let lsb := mag &&& 1
    if half < disc ∨ (disc = half ∧ (sticky = true ∨ lsb = 1)) then mag + 1 else mag
  else mag

/-- The magnitude before the zero correction: saturation (R114), underflow (R115), narrowing (R116, R117),
widening (R120). -/
def packMagnitude (k : Int) (M W : Nat) (sticky : Bool) : Nat :=
  let r := regimeEncode k
  if 6 ≤ k then 0x7F
  else if k ≤ -7 then 0x00
  else
    let F := M - (1 <<< W)
    if r.fl ≤ W then narrowRound r.pat r.fl F (W - r.fl) sticky
    else (r.pat <<< r.fl) + (F <<< (r.fl - W))

/-- The zero correction, on the magnitude, before the sign (R118). -/
def correctZero (mag : Nat) : Nat := if mag = 0 then 1 else mag

/-- The back end: the Posit8 of an exact intermediate result (R112, R119). -/
def roundPack (u : Unrounded) : Byte :=
  withSign u.sign (BitVec.ofNat 8 (correctZero (packMagnitude u.k u.sig u.width u.sticky)))

end Sys2Proof.Machine
end

