-- ==== Sys2Proof/Machine/AddSub.lean ====
section
/-! DEFINITION. The adder unit: ADD and SUB (44_add_sub.md R130 to R137). -/

namespace Sys2Proof.Machine

/-- Renormalisation down: while `R < 2^W`, one less scale and one less fraction bit (R135).
DEDUCED (log entry 8): R > 0 where the rules use it, so the loop ends before W would pass 0. -/
def renormDown (R : Nat) (k : Int) : Nat → Int × Nat
  | 0 => (k, 0)
  | W + 1 => if R < 1 <<< (W + 1) then renormDown R (k - 1) W else (k, W + 1)

/-- The front end on the operand L of larger magnitude and the other operand S:
alignment (R133), raw operation (R134), renormalisation (R135); the sign is L's (R132). -/
def addAligned (L S : Prepared) : Unrounded :=
  let dk := (L.k - S.k).toNat
  let W0 := max L.fl (S.fl + dk)
  let XL := L.sig <<< (W0 - L.fl)
  let XS := S.sig <<< (W0 - (S.fl + dk))
  let R := if L.sign = S.sign then XL + XS else XL - XS
  let up : Int × Nat := if 1 <<< (W0 + 1) ≤ R then (L.k + 1, W0 + 1) else (L.k, W0)
  let kW := renormDown R up.1 up.2
  { sign := L.sign, k := kW.1, sig := R, width := kW.2, sticky := false }

/-- Ordering by magnitude byte; equal magnitudes take L = a (R132).
DESIGN CHOICE (log entry 19): the spec's decision D24, which no result shows. -/
def addFront (a b : Byte) : Unrounded :=
  if (prep b).mag.toNat ≤ (prep a).mag.toNat then addAligned (prep a) (prep b)
  else addAligned (prep b) (prep a)

/-- The sum of two Posit8 (R136), the degenerate table first (R131). -/
def add (a b : Byte) : Byte :=
  if a = zero8 then b
  else if b = zero8 then a
  else if a = nar ∨ b = nar then nar
  else if a = neg8 b then zero8
  else roundPack (addFront a b)

/-- ADD a, b (R130). -/
def execAdd (a b : Byte) (s : State) : Host.Outcome State Fault Refusal :=
  drive (.posit (add a b)) s

/-- SUB a, b: ADD of the two's complement (R137). -/
def execSub (a b : Byte) (s : State) : Host.Outcome State Fault Refusal :=
  drive (.posit (add a (neg8 b))) s

end Sys2Proof.Machine
end

