-- ==== Sys2Proof/Machine/Decomposer.lean ====
section
/-! DEFINITION. The decomposer unit: DECODE (40_decomposer.md R70). -/

namespace Sys2Proof.Machine

/-- The decomposer's fields on the ports of the decoded group (R27): each fits its port (R75).
DEDUCED (log entry 11): narrowing loses nothing. -/
def decodedPorts (f : Fields) : DecodedValue :=
  { sign := f.sign, k := BitVec.ofInt 4 f.k, frac := BitVec.ofNat 5 f.fraction,
    fl := BitVec.ofNat 3 f.fracLength, isZero := f.isZero, isInfinity := f.isInfinity }

/-- DECODE a (R70). -/
def execDecode (a : Byte) (s : State) : Host.Outcome State Fault Refusal :=
  drive (.decoded (decodedPorts (decodeFields a))) s

end Sys2Proof.Machine
end

