-- ==== Sys2Proof/Machine/Divide.lean ====
section
/-! DEFINITION. The divider unit: DIV (46_divide.md R150 to R155). -/

namespace Sys2Proof.Machine

/-- The front end: sign (R152), long division at 7 fraction bits (R153), the one-position correction and the
sticky flag (R154). DESIGN CHOICE (log entry 7): the spec's decision D17.
DEDUCED (log entry 17): the sign is the exclusive or of the operands' signs. -/
def divFront (a b : Byte) : Unrounded :=
  let A := prep a
  let B := prep b
  let A7 := A.sig <<< (7 - A.fl)
  let B7 := B.sig <<< (7 - B.fl)
  let Q := (A7 <<< 7) / B7
  let rem := (A7 <<< 7) % B7
  let k := A.k - B.k
  let kQ : Int × Nat := if Q >>> 7 = 0 then (k - 1, Q <<< 1) else (k, Q)
  { sign := xor A.sign B.sign, k := kQ.1, sig := kQ.2, width := 7, sticky := rem != 0 }

/-- The quotient of two Posit8, a the dividend (R155), the degenerate table first (R151). -/
def div (P : Params) (a b : Byte) : Byte :=
  if b = zero8 then nar
  else if a = zero8 ∧ b = nar then zeroNar P
  else if a = nar ∨ b = nar then nar
  else if a = zero8 then zero8
  else roundPack (divFront a b)

/-- DIV a, b (R150). -/
def execDiv (a b : Byte) (s : State) : Host.Outcome State Fault Refusal :=
  drive (.posit (div s.params a b)) s

end Sys2Proof.Machine
end

