-- ==== Sys2Proof/Machine/Multiply.lean ====
section
/-! DEFINITION. The multiplier unit: MUL (45_multiply.md R140 to R145). -/

namespace Sys2Proof.Machine

/-- The front end: sign (R142), scale and exact product of the aligned significands (R143), overflow bit (R144).
DEDUCED (log entry 17): the sign is the exclusive or of the operands' signs. -/
def mulFront (a b : Byte) : Unrounded :=
  let A := prep a
  let B := prep b
  let W0 := max A.fl B.fl
  let P := (A.sig <<< (W0 - A.fl)) * (B.sig <<< (W0 - B.fl))
  let k := A.k + B.k
  let W := 2 * W0
  let kW : Int × Nat := if 1 <<< (W + 1) ≤ P then (k + 1, W + 1) else (k, W)
  { sign := xor A.sign B.sign, k := kW.1, sig := P, width := kW.2, sticky := false }

/-- The product of two Posit8 (R145), the degenerate table first (R141). -/
def mul (P : Params) (a b : Byte) : Byte :=
  if (a = nar ∧ b = zero8) ∨ (a = zero8 ∧ b = nar) then zeroNar P
  else if a = nar ∨ b = nar then nar
  else if a = zero8 ∨ b = zero8 then zero8
  else roundPack (mulFront a b)

/-- MUL a, b (R140). -/
def execMul (a b : Byte) (s : State) : Host.Outcome State Fault Refusal :=
  drive (.posit (mul s.params a b)) s

end Sys2Proof.Machine
end

