-- ==== Sys2Proof/Machine/Sigmoid.lean ====
section
/-! DEFINITION. The activation unit: SIGMOID (47_sigmoid.md R160).
The shift is arithmetic, as R160 says. DESIGN CHOICE (log entry 12): the shift kind is no parameter. -/

namespace Sys2Proof.Machine

/-- Flip the sign bit, then shift the byte right arithmetically by 2 (R160). -/
def sigmoid (v : Byte) : Byte := asr8 (v ^^^ 0x80) 2

/-- SIGMOID a (R160). -/
def execSigmoid (a : Byte) (s : State) : Host.Outcome State Fault Refusal :=
  drive (.posit (sigmoid a)) s

end Sys2Proof.Machine
end

