-- ==== Sys2Proof/Machine/Dispatch.lean ====
section
/-! DEFINITION. One arm per operation (30_encoding.md R57). -/

namespace Sys2Proof.Machine

/-- What an invocation does (R24). -/
def exec (i : Instr) (s : State) : Host.Outcome State Fault Refusal :=
  match i with
  | .decode a => Sys2Proof.Machine.execDecode a s
  | .p2d a => Sys2Proof.Machine.execP2d a s
  | .d2p d => Sys2Proof.Machine.execD2p d s
  | .regime k => Sys2Proof.Machine.execRegime k s
  | .add a b => Sys2Proof.Machine.execAdd a b s
  | .sub a b => Sys2Proof.Machine.execSub a b s
  | .mul a b => Sys2Proof.Machine.execMul a b s
  | .div a b => Sys2Proof.Machine.execDiv a b s
  | .sigmoid a => Sys2Proof.Machine.execSigmoid a s

end Sys2Proof.Machine
end

