-- ==== Sys2Proof/Machine/Step.lean ====
section
/-! DEFINITION. One step is one invocation (10_state.md R24): read the input ports, run what they select. -/

namespace Sys2Proof.Machine

/-- One invocation of what the input ports carry; a reserved operation code is refused (R59).
DESIGN CHOICE (log entry 20): the spec's decision D5. -/
def step (s : State) : Host.Outcome State Fault Refusal :=
  match decode s.request with
  | .ok i => exec i s
  | .error e => refuse e

/-- The state with a table word on the input ports, the side operand zero: what the next step runs.
DESIGN CHOICE (log entry 6): the dispatcher presents it; the block fetches nothing (R22). -/
def State.withFetchWord (s : State) (nbits w : Nat) : State := s.present (tableRequest nbits w)

end Sys2Proof.Machine
end

