-- ==== Sys2Proof/Machine/Value.lean ====
section
/-! DEFINITION. What encodings stand for, as exact rationals (30_encoding.md R53, 10_state.md R26), and the
rules that are stated on values: the D2P staircase (41_codec.md R84 to R90) and the nearest posit
(43_arith_common.md R122). No operation of the machine calls these: claims are stated in their terms. -/

namespace Sys2Proof.Machine

/-- A magnitude with a sign. -/
def signed (s : Bool) (x : ℚ) : ℚ := if s then -x else x

/-- The value of an encoding; the sentinel has none (R53). -/
def value (v : Byte) : Option ℚ :=
  let f := decodeFields v
  if f.isInfinity then none
  else if f.isZero then some 0
  else some (signed f.sign ((2 : ℚ) ^ f.k * (1 + (f.fraction : ℚ) / 2 ^ f.fracLength)))

/-- The real value of a double; infinities and NaNs have none (R26).
PRESUMED (log entry 9): the layout of binary64. -/
def doubleValue (d : Double) : Option ℚ :=
  let S := dblSign d
  let E := dblExp d
  let T : ℚ := dblTrailing d
  if E = 2047 then none
  else if E = 0 then some (signed S (T * (2 : ℚ) ^ (-1074 : Int)))
  else some (signed S ((2 : ℚ) ^ ((E : Int) - 1023) * (1 + T / 2 ^ 52)))

/-- The exact magnitude an intermediate result starts from: `2^k × M / 2^W` (R112). -/
def scaledValue (k : Int) (M W : Nat) : ℚ := (2 : ℚ) ^ k * ((M : ℚ) / 2 ^ W)

/-- Greedy binary expansion, most significant bit first (R90): `length` bits of `frac`, after `bits`. -/
def fractionToBits : Nat → ℚ → ℚ → Nat → Nat
  | 0, _, _, bits => bits
  | length + 1, frac, probe, bits =>
    if probe ≤ frac then fractionToBits length (frac - probe) (probe / 2) (2 * bits + 1)
    else fractionToBits length frac (probe / 2) (2 * bits)

/-- The halving loop of the ones case (R89); seven rounds are more than it takes before `rl > 6`. -/
def halveLoop : Nat → ℚ → Nat → ℚ × Nat
  | 0, x, rl => (x, rl)
  | n + 1, x, rl => if 2 ≤ x then halveLoop n (x / 2) (rl + 1) else (x, rl)

/-- The doubling loop of the zeros case (R89). -/
def doubleLoop : Nat → ℚ → Nat → ℚ × Nat
  | 0, x, rl => (x, rl)
  | n + 1, x, rl => if x < 1 then doubleLoop n (x * 2) (rl + 1) else (x, rl)

/-- The general case of the staircase, step 7 (R89), with its two early returns. -/
def staircaseGeneral (x : ℚ) : Byte :=
  let ones : Bool := decide (1 ≤ |x|)
  let y := if ones then halveLoop 7 |x| 1 else doubleLoop 7 |x| 0
  if 6 < y.2 then (if ones then 0x7F else 0x01)
  else
    let fl := 6 - y.2
    let runbits := if ones then 2 ^ y.2 - 1 else 0
    let terminator := if ones then 0 else 1
    let packed := (2 * runbits + terminator) * 2 ^ fl + fractionToBits fl (y.1 - 1) (1 / 2) 0
    if x < 0 then neg8 (BitVec.ofNat 8 packed) else BitVec.ofNat 8 packed

/-- The staircase on a real number, first match wins: steps 1 and 3 to 7 (R84, R85, R87 to R89).
Step 2 is about infinities and NaNs, which are no numbers (R86). -/
def staircase (x : ℚ) : Byte :=
  if x = 0 then 0x00
  else if 64 ≤ x then 0x7F
  else if x ≤ -64 then 0x81
  else if 0 < x ∧ x ≤ 1 / 64 then 0x01
  else if -(1 / 64) ≤ x ∧ x < 0 then 0xFF
  else staircaseGeneral x

/-- Of two adjacent magnitude bytes around x, the nearer one, at the midpoint the even one (R122). -/
def nearerOf (x : ℚ) (lo hi : Byte) (l h : ℚ) : Byte :=
  if x = l then lo
  else if x = h then hi
  else if x < (l + h) / 2 then lo
  else if (l + h) / 2 < x then hi
  else if lo.toNat % 2 = 0 then lo else hi

/-- m is the magnitude byte R122 assigns to the positive magnitude x. -/
def NearestMagnitude (x : ℚ) (m : Byte) : Prop :=
  if 64 ≤ x then m = maxPos
  else if x ≤ 1 / 64 then m = minPos
  else ∃ lo hi : Byte, ∃ l h : ℚ,
    1 ≤ lo.toNat ∧ hi.toNat = lo.toNat + 1 ∧ hi.toNat ≤ 0x7F ∧
    value lo = some l ∧ value hi = some h ∧ l ≤ x ∧ x ≤ h ∧ m = nearerOf x lo hi l h

/-- p is the Posit8 R122 assigns to the non-zero real x: the sign of x and the nearest magnitude. -/
def NearestPosit (x : ℚ) (p : Byte) : Prop :=
  ∃ m : Byte, NearestMagnitude |x| m ∧ p = if x < 0 then neg8 m else m

end Sys2Proof.Machine
end

