-- ==== Sys2Proof/Safety.lean ====
section
/-! DEFINITION. What counts as a good state and a good run of the block, in the terms claims use. -/

namespace Sys2Proof.Machine

/-- The operation code is one of the nine (R57, R59). -/
abbrev Admitted (s : State) : Prop := s.op.toNat ≤ 8

/-- One row of the table of regimes: a scale, the first and the last magnitude byte that has it, and how many
fraction bits those have (R54). -/
structure RegimeRow where
  k : Int
  first : Nat
  last : Nat
  fl : Nat
  deriving DecidableEq, Repr

/-- The thirteen regimes (R54). -/
def regimeTable : List RegimeRow :=
  [⟨6, 0x7F, 0x7F, 0⟩, ⟨5, 0x7E, 0x7E, 0⟩, ⟨4, 0x7C, 0x7D, 1⟩, ⟨3, 0x78, 0x7B, 2⟩, ⟨2, 0x70, 0x77, 3⟩,
   ⟨1, 0x60, 0x6F, 4⟩, ⟨0, 0x40, 0x5F, 5⟩, ⟨-1, 0x20, 0x3F, 5⟩, ⟨-2, 0x10, 0x1F, 4⟩, ⟨-3, 0x08, 0x0F, 3⟩,
   ⟨-4, 0x04, 0x07, 2⟩, ⟨-5, 0x02, 0x03, 1⟩, ⟨-6, 0x01, 0x01, 0⟩]

/-- The ports of the decoded group hold what R27 says: for zero and the sentinel every numeric field is zero;
else k and the fraction length are those of one of the thirteen regimes (R54), so k is -6..6 and the length the one
that goes with it, 0 to 5, and the fraction fits it. -/
def decodedInRange (dv : DecodedValue) : Bool :=
  if dv.isZero || dv.isInfinity then
    (dv.isZero != dv.isInfinity) && (dv.sign == dv.isInfinity) && (dv.k == 0) && (dv.frac == 0) && (dv.fl == 0)
  else
    (regimeTable.any fun row => row.k == dv.k.toInt && row.fl == dv.fl.toNat) &&
      decide (dv.frac.toNat < 2 ^ dv.fl.toNat)

/-- The ports of the regime group hold what R28 says: length 2..7, fraction length `7 - rlen`,
and a pattern of at most `rlen` bits. -/
def regimeInRange (rg : RegimeValue) : Bool :=
  decide (2 ≤ rg.len.toNat) && decide (rg.fl.toNat = 7 - rg.len.toNat) && decide (rg.pat.toNat < 2 ^ rg.len.toNat)

/-- The result is of the group the operation code drives (R29) and within its ports' ranges (R27, R28). -/
def resultFits (op : BitVec 4) : Result → Bool
  | .decoded dv => (op == 0x0) && decodedInRange dv
  | .double _ => op == 0x1
  | .regime rg => (op == 0x3) && regimeInRange rg
  | .posit _ => (op == 0x2) || (op == 0x4) || (op == 0x5) || (op == 0x6) || (op == 0x7) || (op == 0x8)

/-- What is driven, if anything is, is a result the operation code on the ports can have (R24, R27 to R30). -/
def OutFits (s : State) : Prop := ∀ r, s.out = some r → resultFits s.op r = true

/-- Which operations read port `a` (R25). -/
def readsA (op : BitVec 4) : Bool := op != 0x2

/-- Which operations read port `b` (R25). -/
def readsB (op : BitVec 4) : Bool := op == 0x4 || op == 0x5 || op == 0x6 || op == 0x7

/-- Which operations read port `d` (R25). -/
def readsD (op : BitVec 4) : Bool := op == 0x2

/-- The significand of an intermediate result has its leading 1 right above its fraction bits (R112). -/
abbrev Normalised (u : Unrounded) : Prop := 2 ^ u.width ≤ u.sig ∧ u.sig < 2 ^ (u.width + 1)

/-- What a step drives; `none` where it has no next state. -/
def driven : Host.Outcome State Fault Refusal → Option Result
  | .next t => t.out
  | .fault _ => none
  | .refused _ => none

/-- The results of a dispatcher's sequence of requests on one copy of the block, in order (R46):
each is presented on the ports the last step left, and a refused one leaves the state as it is. -/
def serve : State → List Request → List (Option Result)
  | _, [] => []
  | s, r :: rs =>
    match step (s.present r) with
    | .next t => t.out :: serve t rs
    | .fault _ => none :: serve s rs
    | .refused _ => none :: serve s rs

end Sys2Proof.Machine
end

