-- ==== Sys2Proof/Certificates/Slice0/Obligations.lean ====
section
/-! DEFINITION. The statements for the provers. Each docstring names the rules of spec/ it rests on;
"derived" ones that rest on a choice of the spec or of the model name its log entry. -/

open Sys2Proof Sys2Proof.Machine

/-! ### The invocation -/

/-- A step runs the operation the ports select, and does nothing around it: no program counter moves and the input
ports keep what was presented (10_state.md, the invocation; the request form is the spec's decision D2, D3,
log entries 1 and 22). -/
def Obligations.StepRunsTheDecodedRequest : Prop :=
  ∀ (s : State) (i : Instr), decode s.request = .ok i → step s = exec i s

/-- The codes 0x9 to 0xF select nothing, and the invocation is refused (30_encoding.md, reserved operation codes;
the spec's decision D5, log entry 20). -/
def Obligations.ReservedCodesAreRefused : Prop :=
  ∀ s : State, 9 ≤ s.op.toNat → step s = .refused (.reservedOp s.op)

/-- R170: an admitted operation has a result, nothing faults, and the only refusal is of a reserved code. -/
def Obligations.OnlyReservedCodesHaveNoResult : Prop :=
  ∀ s : State,
    (∀ f : Fault, step s ≠ .fault f) ∧
    (Admitted s → ∃ r, step s = .next { s with out := some r }) ∧
    (∀ e : Refusal, step s = .refused e → ¬ Admitted s ∧ e = .reservedOp s.op)

/-- R20: what an invocation answers is a function of the input ports (and of the build's parameters) alone. -/
def Obligations.EarlierResultsHaveNoEffect : Prop :=
  ∀ s s' : State, s.request = s'.request → s.params = s'.params → step s = step s'

/-- R193: no operation writes anything an operand is read from. The frame of all nine operations:
the four input ports and the parameters keep their values, and exactly one group is driven. -/
def Obligations.OnlyTheResultChanges : Prop :=
  ∀ (i : Instr) (s t : State), exec i s = .next t →
    t.op = s.op ∧ t.a = s.a ∧ t.b = s.b ∧ t.d = s.d ∧ t.params = s.params ∧ ∃ r, t.out = some r

/-- A port an operation does not read has no effect on what it drives (10_state.md, the table of input ports;
a decision of the spec, D3, log entries 14 and 22). -/
def Obligations.UnreadPortsHaveNoEffect : Prop :=
  ∀ s s' : State, s.op = s'.op → s.params = s'.params →
    (readsA s.op = true → s.a = s'.a) → (readsB s.op = true → s.b = s'.b) → (readsD s.op = true → s.d = s'.d) →
    driven (step s) = driven (step s')

/-- Every invocation is idempotent: the same inputs, made again, leave the same state (20_memory.md, derived there). -/
def Obligations.RepeatedInvocationChangesNothing : Prop :=
  ∀ s t : State, step s = .next t → step t = .next t

/-- In any sequence of invocations on one copy, each request gets the result it gets in isolation (20_memory.md). -/
def Obligations.SequencesServeEachRequestInIsolation : Prop :=
  ∀ (s : State) (rs : List Request), serve s rs = rs.map fun r => driven (step (s.present r))

/-- Every step keeps the invariant that the driven group is the one the operation code drives, with every
field in its port's range (10_state.md, the tables of result ports; decisions D3, D4 of the spec, log entries 11 and 22). -/
def Obligations.DrivenResultsFitTheirPorts : Prop :=
  ∀ s t : State, OutFits s → step s = .next t → OutFits t

/-- At reset nothing is driven and the parameters are the spec's defaults
(the model's choice, log entries 2 to 5; the spec has no reset). -/
def Obligations.ResetComesBeforeAnyInvocation : Prop :=
  OutFits State.reset ∧ State.reset.out = none ∧
    narDouble State.reset.params = 0x7FF0000000000000 ∧ zeroNar State.reset.params = 0x80

/-! ### The encoding of requests (30_encoding.md; codes and formats are the spec's decisions D2, D3,
log entries 13, 14, 22 and 23) -/

/-- Decoding an encoded well-formed instruction gives it back, for all nine operations and every operand. -/
def Obligations.DecodeOfEncodeIsTheInstruction : Prop :=
  ∀ i : Instr, i.wellFormed = true → decode (encode i) = .ok i

/-- What a request decodes to is well formed, and encodes to a request with the same operation code and the
same value on every port that the operation reads. -/
def Obligations.EncodeOfDecodeKeepsReadFields : Prop :=
  ∀ (r : Request) (i : Instr), decode r = .ok i →
    i.wellFormed = true ∧ (encode i).op = r.op ∧
    (readsA r.op = true → (encode i).a = r.a) ∧ (readsB r.op = true → (encode i).b = r.b) ∧
    (readsD r.op = true → (encode i).d = r.d)

/-- The request word has op in bits 19:16, a in 15:8 and b in 7:0, and no bit of it is lost. -/
def Obligations.RequestWordHoldsItsFields : Prop :=
  (∀ r : Request, requestOfWord (requestWord r) r.d = r ∧
    (requestWord r).toNat = r.op.toNat * 65536 + r.a.toNat * 256 + r.b.toNat) ∧
  ∀ (w : BitVec 20) (d : Double), requestWord (requestOfWord w d) = w

/-- One word of each row of the operation table, written out from its encoding, and a reserved one. -/
def Obligations.TableWordsDecodeAsWritten : Prop :=
  decodeTableWord 24 0x05000 = some (.decode 0x50) ∧ decodeTableWord 24 0x10E00 = some (.p2d 0x0E) ∧
  decodeTableWord 24 0x20000 = some (.d2p 0) ∧ decodeTableWord 24 0x3FA00 = some (.regime (-6)) ∧
  decodeTableWord 24 0x441C0 = some (.add 0x41 0xC0) ∧ decodeTableWord 24 0x57F81 = some (.sub 0x7F 0x81) ∧
  decodeTableWord 24 0x601E0 = some (.mul 0x01 0xE0) ∧ decodeTableWord 24 0x74062 = some (.div 0x40 0x62) ∧
  decodeTableWord 24 0x8B800 = some (.sigmoid 0xB8) ∧ decodeTableWord 24 0x95000 = none

/-! ### The decomposer -/

/-- R72, R73: zero and the sentinel do not take the general path. -/
def Obligations.DecodeOfZeroAndSentinel : Prop :=
  ∀ s : State,
    exec (.decode 0x00) s =
      .next { s with out := some (.decoded { sign := false, k := 0, frac := 0, fl := 0, isZero := true, isInfinity := false }) } ∧
    exec (.decode 0x80) s =
      .next { s with out := some (.decoded { sign := true, k := 0, frac := 0, fl := 0, isZero := false, isInfinity := true }) }

/-- R71, R74: in the byte after sign removal, a run of n equal bits from bit 6 down (ended by an opposite bit, or
7 long) gives scale n - 1 if they are ones and -n if they are zeros, `8 - (n + 2)` fraction bits (0 for n = 7),
and the fraction is what those low bits hold. -/
def Obligations.DecodeReadsTheRegimeRun : Prop :=
  ∀ (s : State) (v : Byte), isFiniteNonzero v = true →
    ∃ (dv : DecodedValue) (m : Byte) (n : Nat),
      exec (.decode v) s = .next { s with out := some (.decoded dv) } ∧
      dv.sign = v.getLsbD 7 ∧ dv.isZero = false ∧ dv.isInfinity = false ∧
      m = (if v.getLsbD 7 then neg8 v else v) ∧
      1 ≤ n ∧ n ≤ 7 ∧ (∀ i, i < n → m.getLsbD (6 - i) = m.getLsbD 6) ∧
      (n < 7 → m.getLsbD (6 - n) ≠ m.getLsbD 6) ∧
      dv.k.toInt = (if m.getLsbD 6 then (n : Int) - 1 else -(n : Int)) ∧
      dv.fl.toNat = (if n < 7 then 8 - (n + 2) else 0) ∧ dv.frac.toNat = m.toNat % 2 ^ dv.fl.toNat

/-- DECODE of a finite non-zero byte is a row of the table of the thirteen regimes (30_encoding.md, derived there;
the port widths are decision D3, log entry 11). -/
def Obligations.DecodeFollowsTheThirteenRegimes : Prop :=
  ∀ (s : State) (v : Byte), isFiniteNonzero v = true →
    ∃ row ∈ regimeTable, row.first ≤ (magnitude v).toNat ∧ (magnitude v).toNat ≤ row.last ∧
      exec (.decode v) s = .next { s with out := some (.decoded
        { sign := signBit v, k := BitVec.ofInt 4 row.k, frac := BitVec.ofNat 5 ((magnitude v).toNat - row.first),
          fl := BitVec.ofNat 3 row.fl, isZero := false, isInfinity := false }) }

/-- The decomposer and the regime encoder are inverse on finite non-zero bytes: REGIME of the scale that DECODE
drives gives the same fraction length, and its pattern followed by the fraction is the magnitude byte
(40_decomposer.md, derived there). -/
def Obligations.RegimeOfTheDecodedScaleRebuildsTheByte : Prop :=
  ∀ (s : State) (v : Byte), isFiniteNonzero v = true →
    ∃ (dv : DecodedValue) (rg : RegimeValue),
      exec (.decode v) s = .next { s with out := some (.decoded dv) } ∧
      exec (.regime dv.k.toInt) s = .next { s with out := some (.regime rg) } ∧
      rg.fl = dv.fl ∧ rg.pat.toNat * 2 ^ rg.fl.toNat + dv.frac.toNat = (magnitude v).toNat

/-! ### Values -/

/-- Every byte but the sentinel has a value, a multiple of 2^-6 of magnitude at most 64, and its two's complement
has the opposite one (30_encoding.md, derived there). -/
def Obligations.NegatedBytesHaveOppositeValues : Prop :=
  value 0x80 = none ∧
  ∀ v : Byte, v ≠ 0x80 → ∃ n : Int, -4096 ≤ n ∧ n ≤ 4096 ∧ value v = some ((n : ℚ) / 64) ∧
    value (neg8 v) = some (-((n : ℚ) / 64))

/-- Read as signed integers, the bytes other than the sentinel are ordered as their values
(30_encoding.md, derived there). -/
def Obligations.ValuesAreOrderedAsSignedBytes : Prop :=
  ∀ (u v : Byte) (x y : ℚ), value u = some x → value v = some y → (x < y ↔ u.toInt < v.toInt)

/-! ### The codec -/

/-- P2D of zero is +0.0; P2D of the sentinel is `P_NAR_DOUBLE`, whatever legal value the parameter has: the double
with the parameter's sign and trailing significand and exponent field 2047, so no real number; under the spec's
default it is +infinity (41_codec.md; the spec's decision D9, log entry 4; the layout of binary64, log entry 9). -/
def Obligations.P2DOfZeroAndSentinel : Prop :=
  ∀ s : State,
    exec (.p2d 0x00) s = .next { s with out := some (.double 0) } ∧
    ∃ q : Double, exec (.p2d 0x80) s = .next { s with out := some (.double q) } ∧
      q = narDouble s.params ∧ dblSign q = s.params.narSign ∧ dblExp q = 2047 ∧
      dblTrailing q = s.params.narTrailing.toNat ∧ doubleValue q = none ∧ (s.params = Params.default → q = 0x7FF0000000000000)

/-- P2D is exact: the double has the value of the byte, for every byte that has one (41_codec.md; the layout of
binary64 is general knowledge, log entry 9). -/
def Obligations.P2DIsExact : Prop :=
  ∀ (s : State) (v : Byte) (x : ℚ), value v = some x →
    ∃ q : Double, exec (.p2d v) s = .next { s with out := some (.double q) } ∧ doubleValue q = some x

/-- For a finite non-zero byte and its two's complement the two doubles differ in bit 63 only
(30_encoding.md, DOC's sign handling property; the layout of binary64 is general knowledge, log entry 9). -/
def Obligations.P2DOfTheNegatedByteFlipsBit63 : Prop :=
  ∀ (s : State) (v : Byte), isFiniteNonzero v = true →
    ∃ q : Double, exec (.p2d v) s = .next { s with out := some (.double q) } ∧
      exec (.p2d (neg8 v)) s = .next { s with out := some (.double (q ^^^ 0x8000000000000000)) }

/-- The first six steps of the staircase: zero of either sign, infinities and NaNs, saturation, flush
(41_codec.md R86, R87, R88; that -0.0 equals 0 and the layout of binary64 are general knowledge, log entry 9). -/
def Obligations.D2PSaturatesAndFlushes : Prop :=
  ∀ (s : State) (d : Double),
    (doubleValue d = none → exec (.d2p d) s = .next { s with out := some (.posit 0x80) }) ∧
    ∀ x : ℚ, doubleValue d = some x →
      (x = 0 → exec (.d2p d) s = .next { s with out := some (.posit 0x00) }) ∧
      (64 ≤ x → exec (.d2p d) s = .next { s with out := some (.posit 0x7F) }) ∧
      (x ≤ -64 → exec (.d2p d) s = .next { s with out := some (.posit 0x81) }) ∧
      (0 < x → x ≤ 1 / 64 → exec (.d2p d) s = .next { s with out := some (.posit 0x01) }) ∧
      (-(1 / 64) ≤ x → x < 0 → exec (.d2p d) s = .next { s with out := some (.posit 0xFF) })

/-- D2P, computed on the bits of the double, is the staircase on its real value, for every finite double
(41_codec.md R84, R89, R90; the spec derives the bit form, log entries 9 and 10). -/
def Obligations.D2PRefinesTheStaircase : Prop :=
  ∀ (s : State) (d : Double) (x : ℚ), doubleValue d = some x →
    exec (.d2p d) s = .next { s with out := some (.posit (staircase x)) }

/-- In the general case D2P truncates toward zero: the result's magnitude byte has a value at most |x|, and the
next magnitude byte's value is above |x| (41_codec.md, derived there; truncation is kept by decision D11, log entry 18;
binary64, log entry 9). -/
def Obligations.D2PTruncatesTowardZero : Prop :=
  ∀ (s : State) (d : Double) (x : ℚ), doubleValue d = some x → 1 / 64 < |x| → |x| < 64 →
    ∃ (m : Byte) (l h : ℚ), 1 ≤ m.toNat ∧ m.toNat ≤ 0x7E ∧
      value m = some l ∧ value (m + 1) = some h ∧ l ≤ |x| ∧ |x| < h ∧
      exec (.d2p d) s = .next { s with out := some (.posit (if x < 0 then neg8 m else m)) }

/-- D2P of P2D of a byte is that byte, for all 256 bytes and every legal `P_NAR_DOUBLE` (41_codec.md, DOC's
round trip property; binary64, log entry 9, and P_NAR_DOUBLE, log entry 4). -/
def Obligations.PositsSurviveTheDoubleRoundTrip : Prop :=
  ∀ (s : State) (v : Byte),
    ∃ q : Double, exec (.p2d v) s = .next { s with out := some (.double q) } ∧
      exec (.d2p q) s = .next { s with out := some (.posit v) }

/-! ### The regime encoder -/

/-- R101, R103, R104 (and R102): the regime field of every integer scale. A scale of 6 or more fills the word with
ones; n in 0..5 is n + 1 ones and a zero; -n in -6..-1 is n zeros and a one; -7 or less is all zeros. -/
def Obligations.RegimeFollowsItsTable : Prop :=
  ∀ (s : State) (k : Int),
    (6 ≤ k → exec (.regime k) s = .next { s with out := some (.regime ⟨0x7F, 7, 0⟩) }) ∧
    (k ≤ -7 → exec (.regime k) s = .next { s with out := some (.regime ⟨0x00, 7, 0⟩) }) ∧
    (∀ n : Nat, n ≤ 5 → k = n → exec (.regime k) s = .next { s with out := some (.regime
      ⟨BitVec.ofNat 7 ((2 ^ (n + 1) - 1) * 2), BitVec.ofNat 3 (n + 2), BitVec.ofNat 3 (5 - n)⟩) }) ∧
    (∀ n : Nat, 1 ≤ n → n ≤ 6 → k = -(n : Int) → exec (.regime k) s = .next { s with out := some (.regime
      ⟨0x01, BitVec.ofNat 3 (n + 1), BitVec.ofNat 3 (6 - n)⟩) })

/-! ### The back end of the arithmetic -/

/-- Scale 6 or more saturates and scale -7 or less flushes, whatever the significand and the sticky flag
(43_arith_common.md R114, R115, R118; that neither is rounded and that the sign comes last are the spec's
decisions D15, D16, log entry 7). -/
def Obligations.BackEndSaturatesAndFlushes : Prop :=
  ∀ u : Unrounded,
    (6 ≤ u.k → roundPack u = if u.sign then 0x81 else 0x7F) ∧
    (u.k ≤ -7 → roundPack u = if u.sign then 0xFF else 0x01)

/-- The result is a magnitude byte in 0x01..0x7F, or its two's complement for a negative result; so it is never 0x00
and never 0x80 (43_arith_common.md, the sign; that a saturated result is not rounded and that the zero correction
comes before the sign are the spec's decisions D15 and D16, log entry 7). -/
def Obligations.BackEndAppliesTheSignLast : Prop :=
  ∀ u : Unrounded, Normalised u →
    ∃ mag : Byte, 0x01 ≤ mag.toNat ∧ mag.toNat ≤ 0x7F ∧
      (∀ sign : Bool, roundPack { u with sign := sign } = if sign then neg8 mag else mag) ∧
      roundPack u ≠ 0x00 ∧ roundPack u ≠ 0x80

/-- The back end rounds any normalised intermediate result, of any width, to the nearest posit, ties to the even
byte. With a sticky flag the exact magnitude x lies anywhere strictly between the significand and the next one
that its low j zero bits leave room for, if more than j bits are discarded; if none is, x lies above the significand
by less than half a unit of the last retained bit (43_arith_common.md, narrowing, and the
characterisation without bits, derived there; decisions D13 to D16, log entry 7). -/
def Obligations.BackEndReturnsTheNearest : Prop :=
  ∀ u : Unrounded, Normalised u →
    (u.sticky = false →
      NearestMagnitude (scaledValue u.k u.sig u.width) (roundPack { u with sign := false })) ∧
    (u.sticky = true → ∀ (j : Nat) (x : ℚ), 2 ^ j ∣ u.sig → (regimeEncode u.k).fl + j < u.width →
      scaledValue u.k u.sig u.width < x → x < scaledValue u.k (u.sig + 2 ^ j) u.width →
      NearestMagnitude x (roundPack { u with sign := false })) ∧
    (u.sticky = true → ∀ x : ℚ, u.width ≤ (regimeEncode u.k).fl →
      scaledValue u.k u.sig u.width < x →
      x < scaledValue u.k (u.sig * 2 ^ ((regimeEncode u.k).fl + 1 - u.width) + 1) ((regimeEncode u.k).fl + 1) →
      NearestMagnitude x (roundPack { u with sign := false }))

/-- The adder's front end is exact: no bit of either operand is dropped in alignment, the raw operation or
renormalisation (44_add_sub.md R132 to R135; which operand is L when the magnitudes are equal is the spec's decision D24,
log entry 19). -/
def Obligations.SumFrontEndIsExact : Prop :=
  ∀ (a b : Byte) (x y : ℚ), isFiniteNonzero a = true → isFiniteNonzero b = true → a ≠ neg8 b →
    value a = some x → value b = some y →
    Normalised (addFront a b) ∧ (addFront a b).sticky = false ∧
      signed (addFront a b).sign (scaledValue (addFront a b).k (addFront a b).sig (addFront a b).width) = x + y

/-- The multiplier's front end is exact (45_multiply.md R142 to R144; the sign rule is the spec's inference,
log entry 17). -/
def Obligations.ProductFrontEndIsExact : Prop :=
  ∀ (a b : Byte) (x y : ℚ), isFiniteNonzero a = true → isFiniteNonzero b = true →
    value a = some x → value b = some y →
    Normalised (mulFront a b) ∧ (mulFront a b).sticky = false ∧
      signed (mulFront a b).sign (scaledValue (mulFront a b).k (mulFront a b).sig (mulFront a b).width) = x * y

/-- The divider's front end is exact up to its sticky flag, which is clear exactly when it is exact
(46_divide.md R152 to R154; decision D17, log entry 7, and the sign rule, log entry 17). -/
def Obligations.QuotientFrontEndBracketsTheQuotient : Prop :=
  ∀ (a b : Byte) (x y : ℚ), isFiniteNonzero a = true → isFiniteNonzero b = true →
    value a = some x → value b = some y →
    Normalised (divFront a b) ∧ (divFront a b).width = 7 ∧
      (divFront a b).sign = decide (x / y < 0) ∧
      (scaledValue (divFront a b).k (divFront a b).sig 7 = |x / y| ↔ (divFront a b).sticky = false) ∧
      ∃ j, j ≤ 1 ∧ 2 ^ j ∣ (divFront a b).sig ∧
        scaledValue (divFront a b).k (divFront a b).sig 7 ≤ |x / y| ∧
        |x / y| < scaledValue (divFront a b).k ((divFront a b).sig + 2 ^ j) 7

/-- The scales and widths that reach the back end (43_arith_common.md, the table of ranges, derived there). -/
def Obligations.IntermediateResultsStayInRange : Prop :=
  ∀ a b : Byte, isFiniteNonzero a = true → isFiniteNonzero b = true →
    (a ≠ neg8 b → -6 ≤ (addFront a b).k ∧ (addFront a b).k ≤ 7 ∧ (addFront a b).width ≤ 12) ∧
    (-12 ≤ (mulFront a b).k ∧ (mulFront a b).k ≤ 12 ∧ (mulFront a b).width ≤ 11) ∧
    (-12 ≤ (divFront a b).k ∧ (divFront a b).k ≤ 12)

/-! ### ADD and SUB -/

/-- R131: the degenerate table of ADD, first match wins. -/
def Obligations.AddFollowsItsDegenerateTable : Prop :=
  ∀ (s : State) (a b : Byte),
    (a = 0x00 → exec (.add a b) s = .next { s with out := some (.posit b) }) ∧
    (a ≠ 0x00 → b = 0x00 → exec (.add a b) s = .next { s with out := some (.posit a) }) ∧
    (a ≠ 0x00 → b ≠ 0x00 → a = 0x80 ∨ b = 0x80 → exec (.add a b) s = .next { s with out := some (.posit 0x80) }) ∧
    (a ≠ 0x00 → b ≠ 0x00 → a ≠ 0x80 → b ≠ 0x80 → a = neg8 b →
      exec (.add a b) s = .next { s with out := some (.posit 0x00) })

/-- The sum of two finite non-zero operands that are not exact inverses is the posit nearest to the exact sum
(43_arith_common.md, the characterisation without bits, derived there; decisions D13 to D16, log entry 7). -/
def Obligations.SumsAreNearestPosits : Prop :=
  ∀ (s : State) (a b : Byte) (x y : ℚ), isFiniteNonzero a = true → isFiniteNonzero b = true → a ≠ neg8 b →
    value a = some x → value b = some y →
    ∃ p : Byte, exec (.add a b) s = .next { s with out := some (.posit p) } ∧ NearestPosit (x + y) p

/-- R137: SUB (operation code 0x5, operands a and b) is ADD of the two's complement, and the corner cases that
follow. -/
def Obligations.SubAddsTheNegation : Prop :=
  ∀ (s : State) (a b : Byte),
    (∀ d : Double, decode { op := 0x5, a := a, b := b, d := d } = .ok (.sub a b)) ∧
    (∃ p : Byte, exec (.sub a b) s = .next { s with out := some (.posit p) } ∧
      exec (.add a (neg8 b)) s = .next { s with out := some (.posit p) }) ∧
    exec (.sub a 0x00) s = .next { s with out := some (.posit a) } ∧
    exec (.sub 0x00 b) s = .next { s with out := some (.posit (neg8 b)) } ∧
    exec (.sub a 0x80) s = .next { s with out := some (.posit 0x80) } ∧
    exec (.sub 0x80 b) s = .next { s with out := some (.posit 0x80) } ∧
    exec (.sub a a) s = .next { s with out := some (.posit (if a = 0x80 then 0x80 else 0x00)) } ∧
    exec (.sub 0x50 0x40) s = .next { s with out := some (.posit 0x20) }

/-- ADD is commutative, and negating both operands negates the sum, for all bytes
(43_arith_common.md, the symmetries, derived there; log entries 7 and 17). -/
def Obligations.AddCommutesAndNegates : Prop :=
  ∀ (s : State) (a b : Byte), ∃ p : Byte,
    exec (.add a b) s = .next { s with out := some (.posit p) } ∧
    exec (.add b a) s = .next { s with out := some (.posit p) } ∧
    exec (.add (neg8 a) (neg8 b)) s = .next { s with out := some (.posit (neg8 p)) }

/-! ### MUL -/

/-- The degenerate table of MUL, first match wins, under either legal value of `P_ZERO_NAR`
(45_multiply.md; the first line is the spec's decision D12, log entry 5). -/
def Obligations.MulFollowsItsDegenerateTable : Prop :=
  ∀ (s : State) (a b : Byte),
    ((a = 0x80 ∧ b = 0x00) ∨ (a = 0x00 ∧ b = 0x80) →
      exec (.mul a b) s = .next { s with out := some (.posit (if s.params.zeroNarIsSentinel then 0x80 else 0x00)) }) ∧
    (a ≠ 0x00 → b ≠ 0x00 → a = 0x80 ∨ b = 0x80 → exec (.mul a b) s = .next { s with out := some (.posit 0x80) }) ∧
    (a ≠ 0x80 → b ≠ 0x80 → a = 0x00 ∨ b = 0x00 → exec (.mul a b) s = .next { s with out := some (.posit 0x00) })

/-- The product of two finite non-zero operands is the posit nearest to the exact product
(43_arith_common.md, the characterisation without bits, derived there; decisions D13 to D16, log entry 7). -/
def Obligations.ProductsAreNearestPosits : Prop :=
  ∀ (s : State) (a b : Byte) (x y : ℚ), isFiniteNonzero a = true → isFiniteNonzero b = true →
    value a = some x → value b = some y →
    ∃ p : Byte, exec (.mul a b) s = .next { s with out := some (.posit p) } ∧ NearestPosit (x * y) p

/-- MUL is commutative, and negating one operand negates the product, for all bytes and either `P_ZERO_NAR`
(43_arith_common.md, the symmetries, derived there; log entries 7 and 17). -/
def Obligations.MulCommutesAndNegates : Prop :=
  ∀ (s : State) (a b : Byte), ∃ p : Byte,
    exec (.mul a b) s = .next { s with out := some (.posit p) } ∧
    exec (.mul b a) s = .next { s with out := some (.posit p) } ∧
    exec (.mul (neg8 a) b) s = .next { s with out := some (.posit (neg8 p)) }

/-! ### DIV -/

/-- The degenerate table of DIV, first match wins, under either legal value of `P_ZERO_NAR`
(46_divide.md; the line of 0x00 / 0x80 is the spec's decision D12, log entry 5). -/
def Obligations.DivFollowsItsDegenerateTable : Prop :=
  ∀ (s : State) (a b : Byte),
    (b = 0x00 → exec (.div a b) s = .next { s with out := some (.posit 0x80) }) ∧
    (a = 0x00 → b = 0x80 →
      exec (.div a b) s = .next { s with out := some (.posit (if s.params.zeroNarIsSentinel then 0x80 else 0x00)) }) ∧
    (b ≠ 0x00 → ¬ (a = 0x00 ∧ b = 0x80) → a = 0x80 ∨ b = 0x80 →
      exec (.div a b) s = .next { s with out := some (.posit 0x80) }) ∧
    (b ≠ 0x00 → b ≠ 0x80 → a = 0x00 → exec (.div a b) s = .next { s with out := some (.posit 0x00) })

/-- The quotient of two finite non-zero operands is the posit nearest to the exact quotient
(43_arith_common.md, the characterisation without bits, derived there; decisions D13 to D17, log entry 7). -/
def Obligations.QuotientsAreNearestPosits : Prop :=
  ∀ (s : State) (a b : Byte) (x y : ℚ), isFiniteNonzero a = true → isFiniteNonzero b = true →
    value a = some x → value b = some y →
    ∃ p : Byte, exec (.div a b) s = .next { s with out := some (.posit p) } ∧ NearestPosit (x / y) p

/-- Negating the dividend or the divisor negates the quotient, for all bytes and either `P_ZERO_NAR`
(43_arith_common.md, the symmetries, derived there; log entries 7 and 17). -/
def Obligations.DivNegatesWithEitherOperand : Prop :=
  ∀ (s : State) (a b : Byte), ∃ p : Byte,
    exec (.div a b) s = .next { s with out := some (.posit p) } ∧
    exec (.div (neg8 a) b) s = .next { s with out := some (.posit (neg8 p)) } ∧
    exec (.div a (neg8 b)) s = .next { s with out := some (.posit (neg8 p)) }

/-- 0x40 is the unit of MUL and of DIV for every byte, and a finite non-zero byte divided by itself is 0x40
(45_multiply.md and 46_divide.md, DOC's properties). -/
def Obligations.OneIsTheUnitOfMulAndDiv : Prop :=
  ∀ (s : State) (p : Byte),
    exec (.mul p 0x40) s = .next { s with out := some (.posit p) } ∧
    exec (.mul 0x40 p) s = .next { s with out := some (.posit p) } ∧
    exec (.div p 0x40) s = .next { s with out := some (.posit p) } ∧
    (isFiniteNonzero p = true → exec (.div p p) s = .next { s with out := some (.posit 0x40) })

/-! ### SIGMOID -/

/-- R160: SIGMOID (operation code 0x8, operand a): with t the byte with its sign bit flipped, result bits 7, 6 and
5 are t[7] and result bits 4:0 are t[6:2]; no operand is a special case. -/
def Obligations.SigmoidShiftsTheFlippedByte : Prop :=
  ∀ (s : State) (v : Byte), ∃ (t y : Byte), t = v ^^^ 0x80 ∧
    (∀ (b : Byte) (d : Double), decode { op := 0x8, a := v, b := b, d := d } = .ok (.sigmoid v)) ∧
    exec (.sigmoid v) s = .next { s with out := some (.posit y) } ∧
    y.getLsbD 7 = t.getLsbD 7 ∧ y.getLsbD 6 = t.getLsbD 7 ∧ y.getLsbD 5 = t.getLsbD 7 ∧
    ∀ i, i < 5 → y.getLsbD i = t.getLsbD (i + 2)

/-- What the transform does to values: a byte with bit 7 set goes to a value in 0..31/64, non-decreasing in the
byte; a byte with bit 7 clear goes to a value in -1/2..-1/64 (47_sigmoid.md, derived there; the arithmetic shift is
DOC's word, log entry 12). -/
def Obligations.SigmoidMapsNegativesUpAndTheRestBelowZero : Prop :=
  ∀ (s : State) (v : Byte), ∃ (y : Byte) (x : ℚ),
    exec (.sigmoid v) s = .next { s with out := some (.posit y) } ∧ value y = some x ∧
    (v.getLsbD 7 = true → 0 ≤ x ∧ x ≤ 31 / 64 ∧ y.toNat = v.toNat % 128 / 4) ∧
    (v.getLsbD 7 = false → -(1 / 2) ≤ x ∧ x ≤ -(1 / 64) ∧ y.toNat = 0xE0 + v.toNat / 4) ∧
    ∀ w : Byte, v.getLsbD 7 = true → w.getLsbD 7 = true → v.toNat ≤ w.toNat →
      ∃ (y' : Byte) (x' : ℚ), exec (.sigmoid w) s = .next { s with out := some (.posit y') } ∧
        value y' = some x' ∧ x ≤ x'
end

