-- ==== Sys2Proof/Laws/Decode.lean ====
section
/-! SUPPORT. Inversions of the decoder. -/

namespace Sys2Proof

/-- The decoder refuses only by naming the request's own operation code. -/
theorem decode_error {r : Request} {e : DecodeRefusal} (h : decode r = .error e) : e = .reservedOp r.op := by
  unfold decode at h
  split at h <;> cases h
  rfl

/-- A request with a given code decodes by that code's row of the table (R57). -/
theorem decode_of_op (r : Request) :
    (r.op.toNat = 0 → decode r = .ok (.decode r.a)) ∧ (r.op.toNat = 1 → decode r = .ok (.p2d r.a)) ∧
    (r.op.toNat = 2 → decode r = .ok (.d2p r.d)) ∧ (r.op.toNat = 3 → decode r = .ok (.regime r.a.toInt)) ∧
    (r.op.toNat = 4 → decode r = .ok (.add r.a r.b)) ∧ (r.op.toNat = 5 → decode r = .ok (.sub r.a r.b)) ∧
    (r.op.toNat = 6 → decode r = .ok (.mul r.a r.b)) ∧ (r.op.toNat = 7 → decode r = .ok (.div r.a r.b)) ∧
    (r.op.toNat = 8 → decode r = .ok (.sigmoid r.a)) ∧ (9 ≤ r.op.toNat → decode r = .error (.reservedOp r.op)) := by
  refine ⟨?_, ?_, ?_, ?_, ?_, ?_, ?_, ?_, ?_, ?_⟩ <;> intro h <;> unfold decode
  all_goals split <;> first | rfl | omega | exact absurd h ‹_›

/-- The scale REGIME reads from a byte fits the byte (R58). -/
theorem regime_operand_fits (a : Byte) : (Instr.regime a.toInt).wellFormed = true := by
  have h1 := BitVec.le_toInt (x := a)
  have h2 := BitVec.toInt_lt (x := a)
  simp only [Instr.wellFormed, decide_eq_true_eq]
  omega

end Sys2Proof
end

