-- ==== Sys2Proof/Laws/State.lean ====
section
/-! SUPPORT. One lemma per field and update of the state, and what the shared operations on it do. -/

namespace Sys2Proof.Machine

variable (s : State) (r : Request)

@[simp] theorem request_op : s.request.op = s.op := rfl
@[simp] theorem request_a : s.request.a = s.a := rfl
@[simp] theorem request_b : s.request.b = s.b := rfl
@[simp] theorem request_d : s.request.d = s.d := rfl

@[simp] theorem present_op : (s.present r).op = r.op := rfl
@[simp] theorem present_a : (s.present r).a = r.a := rfl
@[simp] theorem present_b : (s.present r).b = r.b := rfl
@[simp] theorem present_d : (s.present r).d = r.d := rfl
@[simp] theorem present_params : (s.present r).params = s.params := rfl
@[simp] theorem present_out : (s.present r).out = s.out := rfl

/-- What is presented is what the next step reads. -/
@[simp] theorem request_present : (s.present r).request = r := rfl

/-- Presenting what the ports already carry changes nothing. -/
@[simp] theorem present_request : s.present s.request = s := rfl

@[simp] theorem present_present (r' : Request) : (s.present r).present r' = s.present r' := rfl

/-- A driven result touches no input port. -/
@[simp] theorem request_withOut (o : Option Result) : State.request { s with out := o } = s.request := rfl

/-- Everything `drive` can do: it answers a next state that differs in the driven group alone. -/
theorem drive_next {res : Result} {t : State} : drive res s = .next t ↔ t = { s with out := some res } := by
  constructor
  · intro h; injection h with h; exact h.symm
  · rintro rfl; rfl

/-- `drive` never faults. -/
theorem drive_not_fault (res : Result) (f : Fault) : drive res s ≠ .fault f := nofun

/-- `drive` never refuses. -/
theorem drive_not_refused (res : Result) (e : Refusal) : drive res s ≠ .refused e := nofun

/-- What is driven does not depend on what was driven before. -/
theorem drive_withOut (res : Result) (o : Option Result) : drive res { s with out := o } = drive res s := rfl

@[simp] theorem withFetchWord_request (nbits w : Nat) :
    (s.withFetchWord nbits w).request = tableRequest nbits w := rfl

end Sys2Proof.Machine
end

