-- ==== Sys2Proof/Laws/Exec.lean ====
section
/-! SUPPORT. What each operation's arm answers, and the one inversion of `exec` and of `step`. -/

namespace Sys2Proof.Machine

variable (s : State) (a b : Byte)

@[simp] theorem exec_decode :
    exec (.decode a) s = .next { s with out := some (.decoded (decodedPorts (decodeFields a))) } := rfl
@[simp] theorem exec_p2d : exec (.p2d a) s = .next { s with out := some (.double (p2d s.params a)) } := rfl
@[simp] theorem exec_d2p (d : Double) : exec (.d2p d) s = .next { s with out := some (.posit (d2p d)) } := rfl
@[simp] theorem exec_regime (k : Int) :
    exec (.regime k) s = .next { s with out := some (.regime (regimePorts (regimeEncode k))) } := rfl
@[simp] theorem exec_add : exec (.add a b) s = .next { s with out := some (.posit (add a b)) } := rfl
@[simp] theorem exec_sub : exec (.sub a b) s = .next { s with out := some (.posit (add a (neg8 b))) } := rfl
@[simp] theorem exec_mul : exec (.mul a b) s = .next { s with out := some (.posit (mul s.params a b)) } := rfl
@[simp] theorem exec_div : exec (.div a b) s = .next { s with out := some (.posit (div s.params a b)) } := rfl
@[simp] theorem exec_sigmoid : exec (.sigmoid a) s = .next { s with out := some (.posit (sigmoid a)) } := rfl

/-- Everything an operation can do: drive one group. -/
theorem exec_drives (i : Instr) : ∃ r, exec i s = drive r s := by
  cases i <;> exact ⟨_, rfl⟩

/-- Everything a step can do: run the decoded operation, or refuse a reserved code. -/
theorem step_cases :
    (∃ i, decode s.request = .ok i ∧ step s = exec i s) ∨
    (decode s.request = .error (.reservedOp s.op) ∧ step s = .refused (.reservedOp s.op)) := by
  unfold step
  cases h : decode s.request with
  | ok i => exact .inl ⟨i, rfl, rfl⟩
  | error e => rw [decode_error h]; exact .inr ⟨rfl, rfl⟩

end Sys2Proof.Machine
end

