-- ==== Sys2Proof/Laws/Ops.lean ====
section
/-! SUPPORT. Spec lemmas of the shared operations on bytes, doubles, operands and intermediate results. -/

namespace Sys2Proof.Machine

/-- Two's complement is its own inverse (R11). -/
@[simp] theorem neg8_neg8 (x : Byte) : neg8 (neg8 x) = x := by
  revert x; decide +kernel

/-- `neg8(x) = (256 - x) mod 256` (R11). -/
theorem neg8_toNat (x : Byte) : (neg8 x).toNat = (256 - x.toNat) % 256 := by
  revert x; decide +kernel

/-- Zero and the sentinel are the fixed points of two's complement (R51). -/
theorem neg8_eq_self (x : Byte) : neg8 x = x ↔ x = zero8 ∨ x = nar := by
  revert x; decide +kernel

/-- Two's complement keeps the 254 finite non-zero encodings (R51). -/
@[simp] theorem isFiniteNonzero_neg8 (v : Byte) : isFiniteNonzero (neg8 v) = isFiniteNonzero v := by
  revert v; decide +kernel

/-- Two's complement keeps the magnitude byte (R50). -/
theorem magnitude_neg8 (v : Byte) : magnitude (neg8 v) = magnitude v := by
  revert v; decide +kernel

/-- The magnitude byte of a finite non-zero encoding is in 0x01..0x7F (R14). -/
theorem magnitude_range (v : Byte) : isFiniteNonzero v = true → 1 ≤ (magnitude v).toNat ∧ (magnitude v).toNat ≤ 127 := by
  revert v; decide +kernel

/-- A leading-zero count is at most 8, and 8 for zero alone (R12, D8). -/
theorem clz8_le (x : Byte) : clz8 x ≤ 8 ∧ (clz8 x = 8 ↔ x = 0) := by
  revert x; decide +kernel

/-- `P_ZERO_NAR` has one of its two legal values (R141). -/
theorem zeroNar_legal (P : Params) : zeroNar P = nar ∨ zeroNar P = zero8 := by
  unfold zeroNar; split
  · exact .inl rfl
  · exact .inr rfl

/-- The fields of an assembled double (R26). -/
theorem dblSign_dbl (S : Bool) (E T : Nat) : dblSign (dbl S E T) = S := by
  simp only [dblSign, dbl, BitVec.getLsbD_append]
  simp

/-- The fields of an assembled double (R26). -/
theorem dblExp_dbl (S : Bool) (E T : Nat) (h : E < 2048) : dblExp (dbl S E T) = E := by
  have : (dbl S E T).extractLsb' 52 11 = BitVec.ofNat 11 E := by
    apply BitVec.eq_of_getLsbD_eq
    intro i hi
    have h1 : ¬ (52 + i < 52) := by omega
    simp only [dbl, BitVec.getLsbD_extractLsb', BitVec.getLsbD_append, hi, h1, decide_true, Bool.true_and,
      Nat.add_sub_cancel_left, if_true, if_false]
  rw [dblExp, this, BitVec.toNat_ofNat]
  omega

/-- The fields of an assembled double (R26). -/
theorem dblTrailing_dbl (S : Bool) (E T : Nat) (h : T < 2 ^ 52) : dblTrailing (dbl S E T) = T := by
  have : (dbl S E T).extractLsb' 0 52 = BitVec.ofNat 52 T := by
    apply BitVec.eq_of_getLsbD_eq
    intro i hi
    simp only [dbl, BitVec.getLsbD_extractLsb', BitVec.getLsbD_append, hi, Nat.zero_add, decide_true,
      Bool.true_and, if_true]
  rw [dblTrailing, this, BitVec.toNat_ofNat]
  omega

/-- The ranges of a prepared operand (R75, R111): the scale, the fraction length, and the hidden bit above it. -/
theorem prep_range (v : Byte) : isFiniteNonzero v = true →
    -6 ≤ (prep v).k ∧ (prep v).k ≤ 6 ∧ (prep v).fl ≤ 5 ∧
    2 ^ (prep v).fl ≤ (prep v).sig ∧ (prep v).sig < 2 ^ ((prep v).fl + 1) := by
  revert v; decide +kernel

/-- Two's complement changes the sign of a prepared operand and nothing else (R111). -/
theorem prep_neg8 (v : Byte) : isFiniteNonzero v = true →
    prep (neg8 v) = { prep v with sign := !(prep v).sign } := by
  revert v; decide +kernel

/-- The regime of a scale in -6..5 leaves `fl` fraction bits in the word, and its pattern, followed by any `fl` bits,
is a magnitude byte below the largest one (R103 to R105). -/
theorem regimeEncode_middle (k : Int) (h1 : -6 ≤ k) (h2 : k ≤ 5) :
    (regimeEncode k).fl = 7 - (regimeEncode k).len ∧ (regimeEncode k).len ≤ 7 ∧ 1 ≤ (regimeEncode k).pat ∧
    ((regimeEncode k).pat + 1) * 2 ^ (regimeEncode k).fl ≤ 127 := by
  interval_cases k <;> decide

/-- Negating a signed magnitude flips its sign (R119). -/
theorem neg8_withSign (s : Bool) (m : Byte) : neg8 (withSign s m) = withSign (!s) m := by
  cases s <;> simp [withSign]

/-- The back end of the opposite sign is the two's complement (R119). -/
theorem roundPack_not_sign (u : Unrounded) : roundPack { u with sign := !u.sign } = neg8 (roundPack u) := by
  simp only [roundPack, neg8_withSign]

/-- Narrowing in terms of quotient and remainder: what is kept is the quotient of the fraction, and the increment is
decided by its remainder (R116, R117). -/
theorem narrowRound_eq (pat fl F sh : Nat) (sticky : Bool) :
    narrowRound pat fl F sh sticky =
      pat * 2 ^ fl + F / 2 ^ sh +
        (if 0 < sh ∧ (2 ^ (sh - 1) < F % 2 ^ sh ∨
          (F % 2 ^ sh = 2 ^ (sh - 1) ∧ (sticky = true ∨ (pat * 2 ^ fl + F / 2 ^ sh) % 2 = 1))) then 1 else 0) := by
  unfold narrowRound
  simp only [Nat.shiftLeft_eq, Nat.shiftRight_eq_div_pow, Nat.one_mul, Nat.and_one_is_mod,
    Nat.and_two_pow_sub_one_eq_mod]
  by_cases h : 0 < sh
  · simp only [h, if_true, true_and]
    split <;> rfl
  · simp [h]

/-- Renormalisation down ends at the index of R's highest 1 bit, and takes as much from the scale as from the
width (R135). -/
theorem renormDown_spec (R : Nat) (hR : 0 < R) :
    ∀ (W : Nat) (k : Int), R < 2 ^ (W + 1) →
      2 ^ (renormDown R k W).2 ≤ R ∧ R < 2 ^ ((renormDown R k W).2 + 1) ∧ (renormDown R k W).2 ≤ W ∧
      (renormDown R k W).1 - ((renormDown R k W).2 : Int) = k - (W : Int)
  | 0, k, h => by
    simp only [renormDown, pow_zero, Nat.zero_add]
    exact ⟨hR, h, le_refl _, by trivial⟩
  | W + 1, k, h => by
    unfold renormDown
    simp only [Nat.shiftLeft_eq, Nat.one_mul]
    split
    · rename_i hlt
      obtain ⟨h1, h2, h3, h4⟩ := renormDown_spec R hR W (k - 1) hlt
      exact ⟨h1, h2, by omega, by omega⟩
    · rename_i hge
      exact ⟨Nat.le_of_not_lt hge, h, le_refl _, rfl⟩

end Sys2Proof.Machine
end

