-- ==== Sys2Proof/Laws/PerInstr.lean ====
section
/-! SUPPORT. Per-instruction statements about the instruction as syntax. -/

namespace Sys2Proof.Laws.EncodedCode

/-- The operation code the table gives (R57). -/
def code : Instr → Nat
  | .decode _ => 0
  | .p2d _ => 1
  | .d2p _ => 2
  | .regime _ => 3
  | .add _ _ => 4
  | .sub _ _ => 5
  | .mul _ _ => 6
  | .div _ _ => 7
  | .sigmoid _ => 8

/-- The encoder writes the table's code, which is not a reserved one (R57, R59). -/
def Statement (i : Instr) : Prop := (encode i).op.toNat = code i ∧ (encode i).wellFormed = true

theorem decode (a : Byte) : Statement (.decode a) := ⟨rfl, rfl⟩
theorem p2d (a : Byte) : Statement (.p2d a) := ⟨rfl, rfl⟩
theorem d2p (d : Double) : Statement (.d2p d) := ⟨rfl, rfl⟩
theorem regime (k : Int) : Statement (.regime k) := ⟨rfl, rfl⟩
theorem add (a b : Byte) : Statement (.add a b) := ⟨rfl, rfl⟩
theorem sub (a b : Byte) : Statement (.sub a b) := ⟨rfl, rfl⟩
theorem mul (a b : Byte) : Statement (.mul a b) := ⟨rfl, rfl⟩
theorem div (a b : Byte) : Statement (.div a b) := ⟨rfl, rfl⟩
theorem sigmoid (a : Byte) : Statement (.sigmoid a) := ⟨rfl, rfl⟩

end Sys2Proof.Laws.EncodedCode
end

