-- ==== Sys2Proof/Laws/Value.lean ====
section
/-! SUPPORT. Values of prepared operands. -/

namespace Sys2Proof.Machine

/-- The significand is the hidden bit above the fraction (R111). -/
theorem prep_sig (v : Byte) : isFiniteNonzero v = true →
    (prep v).sig = 2 ^ (decodeFields v).fracLength + (decodeFields v).fraction := by
  revert v; decide +kernel

/-- A finite non-zero byte is neither zero nor the sentinel to the decomposer (R72, R73). -/
theorem decodeFields_finite (v : Byte) : isFiniteNonzero v = true →
    (decodeFields v).isZero = false ∧ (decodeFields v).isInfinity = false := by
  revert v; decide +kernel

/-- The magnitude of a prepared operand is exactly `2^k × M / 2^fl` (R111). -/
theorem value_prep (v : Byte) (h : isFiniteNonzero v = true) :
    value v = some (signed (prep v).sign (scaledValue (prep v).k (prep v).sig (prep v).fl)) := by
  obtain ⟨hz, hi⟩ := decodeFields_finite v h
  have hfrac : (1 : ℚ) + (decodeFields v).fraction / 2 ^ (decodeFields v).fracLength =
      ((prep v).sig : ℚ) / 2 ^ (prep v).fl := by
    rw [prep_sig v h, show (prep v).fl = (decodeFields v).fracLength from rfl]
    push_cast
    rw [add_div, div_self (by positivity)]
  unfold value scaledValue
  rw [← hfrac]
  simp only [hz, hi, Bool.false_eq_true, if_false]
  rfl

end Sys2Proof.Machine
end

