-- ==== Sys2Proof/Tests/Slice0.lean ====
section
/-! SUPPORT. The model's own tests: expected values are from 95_test_vectors.md and from the worked examples of the
section files; request words are written out from 30_encoding.md R56, R57. Then one witness for every statement
that has hypotheses. -/

namespace Sys2Proof.Tests

open Sys2Proof Sys2Proof.Machine

/-- A state with a request word and a double on its ports. -/
def port (w : BitVec 20) (d : Double) : State := State.reset.present (requestOfWord w d)

/-- What one step from those ports drives. -/
def answer (w : BitVec 20) (d : Double) : Option Result := driven (step (port w d))

/-- The parameters' other choice: a signalling NaN with its sign set, and 0x00. -/
def otherParams : Params := { narSign := true, narTrailing := 1, zeroNarIsSentinel := false }

/-- The same step under the parameters' other choice. -/
def answerOther (w : BitVec 20) (d : Double) : Option Result := driven (step { port w d with params := otherParams })

/-! ### Well-formedness: each check refuses an ill-formed term -/

theorem test_wf_regime_above : Instr.wellFormed (.regime 128) = false := by decide
theorem test_wf_regime_below : Instr.wellFormed (.regime (-129)) = false := by decide
theorem test_wf_regime_ends : Instr.wellFormed (.regime 127) = true ∧ Instr.wellFormed (.regime (-128)) = true := by
  decide
theorem test_wf_request_reserved : Request.wellFormed { op := 9, a := 0, b := 0, d := 0 } = false := by decide
theorem test_wf_request_last : Request.wellFormed { op := 8, a := 0, b := 0, d := 0 } = true := by decide

/-! ### Decoding: words written out bit by bit (op, a, b) -/

theorem test_decode_decode :
    decode (requestOfWord 0b00000101000000000000 0) = .ok (.decode 0x50) := by rfl
theorem test_decode_p2d :
    decode (requestOfWord 0b00011000000000000000 0) = .ok (.p2d 0x80) := by rfl
theorem test_decode_d2p :
    decode (requestOfWord 0b00100000000000000000 0x400921F9F01B866E) = .ok (.d2p 0x400921F9F01B866E) := by rfl
theorem test_decode_regime :
    decode (requestOfWord 0b00111111001100000000 0) = .ok (.regime (-13)) := by rfl
theorem test_decode_add :
    decode (requestOfWord 0b01000100000111000000 0) = .ok (.add 0x41 0xC0) := by rfl
theorem test_decode_sub :
    decode (requestOfWord 0b01010111111110000001 0) = .ok (.sub 0x7F 0x81) := by rfl
theorem test_decode_mul :
    decode (requestOfWord 0b01100000000111100000 0) = .ok (.mul 0x01 0xE0) := by rfl
theorem test_decode_div :
    decode (requestOfWord 0b01110100000001010000 0) = .ok (.div 0x40 0x50) := by rfl
theorem test_decode_sigmoid :
    decode (requestOfWord 0b10001011100000000000 0) = .ok (.sigmoid 0xB8) := by rfl
theorem test_decode_reserved :
    decode (requestOfWord 0b10011011100000000000 0) = .error (.reservedOp 9) := by rfl
theorem test_table_word_too_long : decodeTableWord 24 0x105000 = none := by decide

/-! ### The operations (95_test_vectors.md, parts 2.1 to 2.8) -/

-- 2.1: 0xA1 is -1.96875: sign 1, k 0, fraction 31 of 5 bits.
theorem test_DECODE_negative : answer 0x0A100 0 =
    some (.decoded { sign := true, k := 0, frac := 31, fl := 5, isZero := false, isInfinity := false }) := by
  decide +kernel
-- 2.1: 0x01 has a run of 6 zeros; dv_k[3:0] is 0xA.
theorem test_DECODE_smallest : answer 0x00100 0 =
    some (.decoded { sign := false, k := 0xA, frac := 0, fl := 0, isZero := false, isInfinity := false }) := by
  decide +kernel
-- Part 1, S13.
theorem test_P2D_1_5 : answer 0x15000 0 = some (.double 0x3FF8000000000000) := by decide +kernel
-- P4, line 5, under the default and under another legal value of P_NAR_DOUBLE.
theorem test_P2D_sentinel : answer 0x18000 0 = some (.double 0x7FF0000000000000) ∧
    answerOther 0x18000 0 = some (.double 0xFFF0000000000001) := by decide +kernel
-- 2.3: -0.3 is truncated toward zero, then negated.
theorem test_D2P_truncates : answer 0x20000 0xBFD3333333333333 = some (.posit 0xED) := by decide +kernel
-- 2.3: the next double above 2^-6 is in the general case with no fraction bit.
theorem test_D2P_above_flush : answer 0x20000 0x3F90000000000001 = some (.posit 0x01) := by decide +kernel
-- 2.4: k = 5 is the longest regime with a terminator.
theorem test_REGIME_5 : answer 0x30500 0 = some (.regime ⟨0x7E, 7, 0⟩) := by decide +kernel
-- 2.4: k = -2.
theorem test_REGIME_minus2 : answer 0x3FE00 0 = some (.regime ⟨0x01, 3, 4⟩) := by decide +kernel
-- 2.5: 1.03125 + 2^-6 is a tie that goes up to the even byte.
theorem test_ADD_tie_up : answer 0x44101 0 = some (.posit 0x42) := by decide +kernel
-- 2.5: cancellation, renormalised down five steps, with the larger magnitude in b.
theorem test_ADD_cancels : answer 0x4C041 0 = some (.posit 0x02) := by decide +kernel
-- 2.5: 1 - 1.5.
theorem test_SUB_negative : answer 0x54050 0 = some (.posit 0xE0) := by decide +kernel
-- 2.5: -64 - 64 saturates.
theorem test_SUB_saturates : answer 0x5817F 0 = some (.posit 0x81) := by decide +kernel
-- 2.6: a negative underflow keeps its sign.
theorem test_MUL_negative_flush : answer 0x601E0 0 = some (.posit 0xFF) := by decide +kernel
-- 2.6: zero times the sentinel, under either value of P_ZERO_NAR.
theorem test_MUL_zero_sentinel : answer 0x60080 0 = some (.posit 0x80) ∧
    answerOther 0x60080 0 = some (.posit 0x00) := by decide +kernel
-- R155: 1 / 1.5, where the remainder decides the tie.
theorem test_DIV_sticky : answer 0x74050 0 = some (.posit 0x2B) := by decide +kernel
-- 2.7: 0 / 0: the zero divisor first.
theorem test_DIV_zero_by_zero : answer 0x70000 0 = some (.posit 0x80) := by decide +kernel
-- R160: SIGMOID of -1.
theorem test_SIGMOID_minus1 : answer 0x8C000 0 = some (.posit 0x10) := by decide +kernel
-- R161: the shift is arithmetic on a non-negative operand.
theorem test_SIGMOID_1 : answer 0x84000 0 = some (.posit 0xF0) := by decide +kernel

theorem test_reserved_code_is_refused : step (port 0xF0000 0) = .refused (.reservedOp 0xF) := by rfl
theorem test_fetch_word : step (State.reset.withFetchWord 24 0x45040) = exec (.add 0x50 0x40) (port 0x45040 0) := by
  rfl

/-! ### Witnesses: a concrete case that meets all hypotheses of a statement, and one for each clause -/

theorem witness_StepRunsTheDecodedRequest : decode (port 0x45040 0).request = .ok (.add 0x50 0x40) := by rfl
theorem witness_ReservedCodesAreRefused : 9 ≤ (port 0x90000 0).op.toNat ∧ 9 ≤ (port 0xF0000 0).op.toNat := by decide
theorem witness_OnlyReservedCodesHaveNoResult :
    Admitted (port 0x80000 0) ∧ step (port 0x90000 0) = .refused (.reservedOp 9) := ⟨by decide, by rfl⟩
theorem witness_EarlierResultsHaveNoEffect :
    let s := port 0x45040 0
    let s' := { s with out := some (.posit 7) }
    s ≠ s' ∧ s.request = s'.request ∧ s.params = s'.params := by decide
theorem witness_OnlyTheResultChanges :
    exec (.sigmoid 0xC0) (port 0x8C000 0) = .next { port 0x8C000 0 with out := some (.posit 0x10) } := by rfl
theorem witness_UnreadPortsHaveNoEffect :
    let s := port 0x15000 0
    let s' := port 0x150FF 1
    s.b ≠ s'.b ∧ s.d ≠ s'.d ∧ s.op = s'.op ∧ s.params = s'.params ∧ (readsA s.op = true → s.a = s'.a) ∧
      (readsB s.op = true → s.b = s'.b) ∧ (readsD s.op = true → s.d = s'.d) := by decide
theorem witness_UnreadPortsHaveNoEffect_d2p :
    let s := port 0x20000 5
    let s' := port 0x2FFFF 5
    s.a ≠ s'.a ∧ s.b ≠ s'.b ∧ s.op = s'.op ∧ s.params = s'.params ∧ (readsA s.op = true → s.a = s'.a) ∧
      (readsB s.op = true → s.b = s'.b) ∧ (readsD s.op = true → s.d = s'.d) := by decide
theorem witness_RepeatedInvocationChangesNothing :
    step (port 0x45040 0) = .next { port 0x45040 0 with out := some (.posit 0x64) } := by rfl
theorem witness_DrivenResultsFitTheirPorts :
    OutFits { port 0x00100 0 with out := none } ∧
      step (port 0x00100 0) = .next { port 0x00100 0 with out := some (.decoded ⟨false, 0xA, 0, 0, false, false⟩) } :=
  ⟨nofun, by rfl⟩
-- The invariant rules states out: a fraction that does not fit its length, a length that does not go with its scale,
-- and a group the code does not drive.
theorem witness_OutFits_refuses :
    ¬ OutFits { port 0x00100 0 with out := some (.decoded ⟨false, 0xA, 1, 0, false, false⟩) } ∧
      ¬ OutFits { port 0x00100 0 with out := some (.decoded ⟨false, 0xA, 0, 5, false, false⟩) } ∧
      ¬ OutFits { port 0x00100 0 with out := some (.posit 1) } :=
  ⟨fun h => absurd (h _ rfl) (by decide), fun h => absurd (h _ rfl) (by decide), fun h => absurd (h _ rfl) (by decide)⟩
theorem witness_DecodeOfEncode : Instr.wellFormed (.regime (-128)) = true ∧ Instr.wellFormed (.d2p 1) = true := by decide
theorem witness_EncodeOfDecodeKeepsReadFields :
    decode { op := 3, a := 0x80, b := 7, d := 9 } = .ok (.regime (-128)) ∧ readsA 3 = true ∧
      decode { op := 7, a := 1, b := 7, d := 9 } = .ok (.div 1 7) ∧ readsB 7 = true ∧
      decode { op := 2, a := 1, b := 7, d := 9 } = .ok (.d2p 9) ∧ readsD 2 = true := ⟨rfl, rfl, rfl, rfl, rfl, rfl⟩

-- Finite non-zero operands at both ends of the magnitude range (DecodeReadsTheRegimeRun,
-- DecodeFollowsTheThirteenRegimes, RegimeOfTheDecodedScaleRebuildsTheByte, P2DOfTheNegatedByteFlipsBit63).
theorem witness_finite_operands : isFiniteNonzero 0x01 = true ∧ isFiniteNonzero 0x7F = true ∧
    isFiniteNonzero 0x81 = true ∧ isFiniteNonzero 0xFF = true := by decide

-- Values of operands (P2DIsExact, ValuesAreOrderedAsSignedBytes, and, with the inequality, the front ends and the
-- nearest-posit statements of ADD, MUL and DIV).
theorem witness_values : value 0x50 = some (3 / 2) ∧ value 0xC0 = some (-1) ∧ value 0x00 = some 0 ∧
    value 0x01 = some (1 / 64) ∧ value 0x81 = some (-64) ∧ value 0x80 = none := by decide +kernel
theorem witness_sum_operands : isFiniteNonzero 0x50 = true ∧ isFiniteNonzero 0xC0 = true ∧
    (0x50 : Byte) ≠ neg8 0xC0 ∧ value 0x50 = some (3 / 2) ∧ value 0xC0 = some (-1) := by decide +kernel
theorem witness_NegatedBytesHaveOppositeValues : (0x7F : Byte) ≠ 0x80 ∧ (0x81 : Byte) ≠ 0x80 := by decide
theorem witness_P2DOfZeroAndSentinel : State.reset.params = Params.default := rfl
-- The parameter is not fixed by its exponent field: two legal values differ.
theorem witness_narDouble_varies : narDouble otherParams ≠ narDouble Params.default := by decide +kernel

-- One double for each clause of the staircase's ends, at the inclusive boundaries, and one in the general case
-- (D2PSaturatesAndFlushes, D2PRefinesTheStaircase, D2PTruncatesTowardZero).
theorem witness_doubles : doubleValue 0x7FF0000000000001 = none ∧ doubleValue 0x8000000000000000 = some 0 ∧
    doubleValue 0x4050000000000000 = some 64 ∧ doubleValue 0xC050000000000000 = some (-64) ∧
    doubleValue 0x3F90000000000000 = some (1 / 64) ∧ doubleValue 0xBF90000000000000 = some (-(1 / 64)) ∧
    doubleValue 0xBFF8000000000000 = some (-(3 / 2)) := by decide +kernel
theorem witness_D2PTruncatesTowardZero :
    doubleValue 0xBFF8000000000000 = some (-(3 / 2)) ∧ (1 : ℚ) / 64 < |-(3 / 2)| ∧ |(-(3 / 2) : ℚ)| < 64 := by
  refine ⟨by decide +kernel, ?_, ?_⟩ <;> norm_num [abs_of_neg]

-- Each clause of the regime table at the ends of its range (RegimeFollowsItsTable).
theorem witness_RegimeFollowsItsTable : (6 : Int) ≤ 6 ∧ (-7 : Int) ≤ -7 ∧ ((5 : Nat) ≤ 5 ∧ (5 : Int) = (5 : Nat)) ∧
    ((0 : Nat) ≤ 5 ∧ (0 : Int) = (0 : Nat)) ∧ ((1 : Nat) ≤ 1 ∧ (1 : Nat) ≤ 6 ∧ (-1 : Int) = -((1 : Nat) : Int)) ∧
    ((1 : Nat) ≤ 6 ∧ (6 : Nat) ≤ 6 ∧ (-6 : Int) = -((6 : Nat) : Int)) := by decide

-- 67 with 6 fraction bits at scale 0 (R136, ADD 0x41, 0x01); 170 with 7 at scale -1 (R155, DIV 0x40, 0x50).
theorem witness_BackEnd_normalised : Normalised ⟨false, 0, 67, 6, false⟩ ∧ Normalised ⟨true, -1, 170, 7, true⟩ := by
  decide
theorem witness_BackEndSaturatesAndFlushes :
    (6 : Int) ≤ (Unrounded.mk true 6 1 0 false).k ∧ (Unrounded.mk true (-7) 1 0 true).k ≤ -7 := by decide
theorem witness_BackEndReturnsTheNearest :
    (2 ^ 1 ∣ 170) ∧ (regimeEncode (-1)).fl + 1 < 7 ∧
      scaledValue (-1) 170 7 < 2 / 3 ∧ (2 : ℚ) / 3 < scaledValue (-1) (170 + 2 ^ 1) 7 := by
  refine ⟨by decide, by decide, ?_, ?_⟩ <;> norm_num [scaledValue]
-- Nothing discarded: scale 5 keeps no fraction bit, and 40 lies above 32 by less than half of the step to 64.
theorem witness_BackEndReturnsTheNearest_nothing_discarded :
    Normalised ⟨false, 5, 1, 0, true⟩ ∧ 0 ≤ (regimeEncode 5).fl ∧ scaledValue 5 1 0 < 40 ∧
      (40 : ℚ) < scaledValue 5 (1 * 2 ^ ((regimeEncode 5).fl + 1 - 0) + 1) ((regimeEncode 5).fl + 1) := by
  have h : (regimeEncode 5).fl = 0 := by decide
  refine ⟨by decide, by decide, ?_, ?_⟩
  · norm_num [scaledValue]
  · rw [h]; norm_num [scaledValue]
theorem witness_IntermediateResults : isFiniteNonzero 0x7F = true ∧ isFiniteNonzero 0x81 = true ∧
    (0x7F : Byte) ≠ neg8 0x7F := by decide

-- Every clause of the degenerate tables, at bytes where clauses meet (R131, R141, R151).
theorem witness_AddFollowsItsDegenerateTable :
    ((0x50 : Byte) ≠ 0x00 ∧ (0x00 : Byte) = 0x00) ∧
    ((0x50 : Byte) ≠ 0x00 ∧ (0x80 : Byte) ≠ 0x00 ∧ ((0x50 : Byte) = 0x80 ∨ (0x80 : Byte) = 0x80)) ∧
    ((0x50 : Byte) ≠ 0x00 ∧ (0xB0 : Byte) ≠ 0x00 ∧ (0x50 : Byte) ≠ 0x80 ∧ (0xB0 : Byte) ≠ 0x80 ∧
      (0x50 : Byte) = neg8 0xB0) := by decide
theorem witness_MulFollowsItsDegenerateTable :
    (((0x80 : Byte) = 0x80 ∧ (0x00 : Byte) = 0x00) ∨ ((0x80 : Byte) = 0x00 ∧ (0x00 : Byte) = 0x80)) ∧
    ((0x80 : Byte) ≠ 0x00 ∧ (0x01 : Byte) ≠ 0x00 ∧ ((0x80 : Byte) = 0x80 ∨ (0x01 : Byte) = 0x80)) ∧
    ((0x7F : Byte) ≠ 0x80 ∧ (0x00 : Byte) ≠ 0x80 ∧ ((0x7F : Byte) = 0x00 ∨ (0x00 : Byte) = 0x00)) := by decide
theorem witness_DivFollowsItsDegenerateTable :
    ((0x00 : Byte) ≠ 0x80 ∧ (0x80 : Byte) ≠ 0x00 ∧ ¬ ((0x50 : Byte) = 0x00 ∧ (0x80 : Byte) = 0x80) ∧
      ((0x50 : Byte) = 0x80 ∨ (0x80 : Byte) = 0x80)) ∧
    ((0x01 : Byte) ≠ 0x00 ∧ (0x01 : Byte) ≠ 0x80 ∧ (0x00 : Byte) = 0x00) := by decide
theorem witness_OneIsTheUnitOfMulAndDiv : isFiniteNonzero 0x50 = true := by decide
theorem witness_Sigmoid : (0x81 : Byte).getLsbD 7 = true ∧ (0xFF : Byte).getLsbD 7 = true ∧
    (0x81 : Byte).toNat ≤ (0xFF : Byte).toNat ∧ (0x7F : Byte).getLsbD 7 = false := by decide

end Sys2Proof.Tests
end

section
/-! The group driven by an earlier invocation is read by nothing (10_state.md R20). -/

namespace Sys2Proof.Machine

/-- Two states with the same request and the same parameters differ at most in the driven group. -/
theorem eq_withOut_of_request_eq {s s' : State} (hreq : s.request = s'.request) (hpar : s.params = s'.params) :
    s = { s' with out := s.out } := by
  obtain ⟨op, a, b, d, params, out⟩ := s
  obtain ⟨op', a', b', d', params', out'⟩ := s'
  cases hreq
  cases hpar
  rfl

/-- No operation reads the driven group: each reads its operands and the parameters, and ends in `drive`,
which overwrites the group. -/
@[simp] theorem exec_withOut (i : Instr) (s : State) (o : Option Result) :
    exec i { s with out := o } = exec i s := by
  cases i <;> exact drive_withOut ..

/-- A step decodes the request, which does not contain the driven group, and no operation reads it. -/
@[simp] theorem step_withOut (s : State) (o : Option Result) : step { s with out := o } = step s := by
  simp only [step, request_withOut, exec_withOut]

/-- Settles O4: equal requests and parameters leave only the driven group to differ, and a step ignores it. -/
theorem earlierResultsHaveNoEffect : Obligations.EarlierResultsHaveNoEffect := by
  intro s s' hreq hpar
  rw [eq_withOut_of_request_eq hreq hpar, step_withOut]

end Sys2Proof.Machine
end

section
/-! The decomposer: DECODE (40_decomposer.md R70 to R75). -/

namespace Sys2Proof.Machine

/-- Zero does not take the general path (R72). -/
@[simp] theorem decodeFields_zero :
    decodeFields 0x00 =
      { sign := false, k := 0, fraction := 0, fracLength := 0, isZero := true, isInfinity := false } := rfl

/-- The sentinel does not take the general path (R73). -/
@[simp] theorem decodeFields_sentinel :
    decodeFields 0x80 =
      { sign := true, k := 0, fraction := 0, fracLength := 0, isZero := false, isInfinity := true } := rfl

/-- Settles O15: the two special fields of R72 and R73 on their ports. -/
theorem decodeOfZeroAndSentinel : Obligations.DecodeOfZeroAndSentinel := by
  intro s
  simp only [exec_decode, decodeFields_zero, decodeFields_sentinel]
  exact ⟨rfl, rfl⟩

/-- Counted from bit `n - 1` down, the counted bits are zeros, and a 1 ends them unless the byte's end does (R12). -/
theorem leadingZerosBelow_spec (x : Byte) :
    ∀ n : Nat, leadingZerosBelow x n ≤ n ∧
      (∀ i < leadingZerosBelow x n, x.getLsbD (n - 1 - i) = false) ∧
      (leadingZerosBelow x n < n → x.getLsbD (n - 1 - leadingZerosBelow x n) = true)
  | 0 => by simp [leadingZerosBelow]
  | n + 1 => by
    obtain ⟨hle, hzeros, hone⟩ := leadingZerosBelow_spec x n
    unfold leadingZerosBelow
    cases htop : x.getLsbD n with
    | true => simp [htop]
    | false =>
      simp only [Bool.false_eq_true, if_false, Nat.add_sub_cancel, Nat.add_lt_add_iff_right]
      refine ⟨by omega, fun i hi => ?_, fun hlt => ?_⟩
      · cases i with
        | zero => exact htop
        | succ i => rw [show n - (i + 1) = n - 1 - i by omega]; exact hzeros i (by omega)
      · rw [show n - (leadingZerosBelow x n + 1) = n - 1 - leadingZerosBelow x n by omega]
        exact hone hlt

/-- A run of `n` equal bits stands in `m` from bit 6 down: an opposite bit or the end of the byte ends it (R74). -/
structure IsRegimeRun (m : Byte) (n : Nat) : Prop where
  one_le : 1 ≤ n
  le_seven : n ≤ 7
  equal : ∀ i < n, m.getLsbD (6 - i) = m.getLsbD 6
  ended : n < 7 → m.getLsbD (6 - n) ≠ m.getLsbD 6

/-- The shift of R71 drops bit 7: bit `7 - i` of the shifted byte is bit `6 - i`. -/
theorem getLsbD_shiftLeft_one (m : Byte) {i : Nat} (hi : i < 7) :
    (m <<< 1).getLsbD (7 - i) = m.getLsbD (6 - i) := by
  have hlow : 7 - i < 8 := by omega
  have hshifted : ¬ 7 - i < 1 := by omega
  rw [BitVec.getLsbD_shiftLeft, show 7 - i - 1 = 6 - i by omega]
  simp only [hlow, hshifted, decide_true, decide_false, Bool.not_false, Bool.true_and]

/-- The leading-zero count is zero when bit 7 is 1 (R12). -/
theorem clz8_eq_zero_iff (x : Byte) : clz8 x = 0 ↔ x.getLsbD 7 = true := by
  unfold clz8 leadingZerosBelow
  cases x.getLsbD 7 <;> simp only [Bool.false_eq_true, if_false, if_true, Nat.succ_ne_zero]

/-- A count over a byte that marks where `m` differs from its own bit 6 finds the run, of either kind (R71, R74). -/
theorem isRegimeRun_clz8 {m x : Byte} (hx : ∀ i < 7, x.getLsbD (7 - i) = (m.getLsbD (6 - i) != m.getLsbD 6))
    (hne : x ≠ 0) : IsRegimeRun m (clz8 x) := by
  obtain ⟨-, hzeros, hone⟩ := leadingZerosBelow_spec x 8
  obtain ⟨hle, heq8⟩ := clz8_le x
  have hle7 : clz8 x ≤ 7 := by
    have : clz8 x ≠ 8 := fun h => hne (heq8.mp h)
    omega
  refine ⟨?_, hle7, fun i hi => ?_, fun hlt => ?_⟩
  · have htop : x.getLsbD 7 = false := by simpa using hx 0 (by omega)
    have : clz8 x ≠ 0 := by rw [Ne, clz8_eq_zero_iff, htop]; exact Bool.false_ne_true
    omega
  · have hsame := (hx i (by omega)).symm.trans (hzeros i hi)
    simpa using hsame
  · have hdiffer := (hx _ hlt).symm.trans (hone (Nat.lt_succ_of_lt hlt))
    simpa using hdiffer

/-- The run of a non-zero magnitude byte is found, and its kind is told by the bit after the sign (R71, R74). -/
theorem regimeRun_spec {m : Byte} (hpos : 1 ≤ m.toNat) (hlt : m.toNat ≤ 127) :
    (regimeRun m).1 = m.getLsbD 6 ∧ IsRegimeRun m (regimeRun m).2 := by
  have htop : (m <<< 1).getLsbD 7 = m.getLsbD 6 := getLsbD_shiftLeft_one m (i := 0) (by omega)
  cases hkind : m.getLsbD 6 with
  | true =>
    have hz : clz8 (m <<< 1) = 0 := (clz8_eq_zero_iff _).mpr (htop.trans hkind)
    have hrun : regimeRun m = (true, clz8 (~~~(m <<< 1))) := by simp [regimeRun, hz]
    rw [hrun]
    refine ⟨rfl, isRegimeRun_clz8 (fun i hi => ?_) fun hzero => ?_⟩
    · rw [BitVec.getLsbD_not, getLsbD_shiftLeft_one m hi, hkind, decide_eq_true (by omega : 7 - i < 8),
        Bool.true_and, Bool.bne_true]
    · have hbit0 : (~~~(m <<< 1)).getLsbD 0 = true := by simp
      simp [hzero] at hbit0
  | false =>
    have hz : clz8 (m <<< 1) ≠ 0 := by rw [Ne, clz8_eq_zero_iff, htop, hkind]; exact Bool.false_ne_true
    have hrun : regimeRun m = (false, clz8 (m <<< 1)) := by simp [regimeRun, hz]
    rw [hrun]
    refine ⟨rfl, isRegimeRun_clz8 (fun i hi => ?_) fun hzero => ?_⟩
    · rw [getLsbD_shiftLeft_one m hi, hkind, Bool.bne_false]
    · have : m.toNat <<< 1 % 2 ^ 8 = 0 := by simpa using congrArg BitVec.toNat hzero
      omega

/-- The fraction length that a run of `run` equal bits leaves (R71). -/
def fracLengthOfRun (run : Nat) : Nat := if run < 7 then 8 - (run + 2) else 0

/-- The general path, which every finite non-zero byte takes, with the fraction as a remainder (R71). -/
theorem decodeFields_of_finite {v : Byte} (h : isFiniteNonzero v = true) :
    decodeFields v =
      { sign := signBit v
        k := if (regimeRun (magnitude v)).1 then ((regimeRun (magnitude v)).2 : Int) - 1
          else -((regimeRun (magnitude v)).2 : Int)
        fraction := (magnitude v).toNat % 2 ^ fracLengthOfRun (regimeRun (magnitude v)).2
        fracLength := fracLengthOfRun (regimeRun (magnitude v)).2
        isZero := false
        isInfinity := false } := by
  obtain ⟨hzero, hnar⟩ : v ≠ zero8 ∧ v ≠ nar := by simpa [isFiniteNonzero] using h
  have hmask : ∀ fl : Nat, (if 0 < fl then (magnitude v).toNat &&& ((1 <<< fl) - 1) else 0) =
      (magnitude v).toNat % 2 ^ fl := by
    intro fl
    cases fl with
    | zero => simp [Nat.mod_one]
    | succ fl =>
      rw [if_pos (Nat.succ_pos fl), Nat.shiftLeft_eq, Nat.one_mul, Nat.and_two_pow_sub_one_eq_mod]
  simp only [decodeFields, hzero, hnar, if_false, hmask, fracLengthOfRun]

/-- The ports of the decoded group hold the fields of a finite non-zero byte without loss (R27, R75). -/
theorem decodedPorts_lossless {v : Byte} (h : isFiniteNonzero v = true) :
    (decodedPorts (decodeFields v)).k.toInt = (decodeFields v).k ∧
      (decodedPorts (decodeFields v)).fl.toNat = (decodeFields v).fracLength ∧
      (decodedPorts (decodeFields v)).frac.toNat = (decodeFields v).fraction := by
  obtain ⟨hk1, hk2, hfl, -, -⟩ : -6 ≤ (decodeFields v).k ∧ (decodeFields v).k ≤ 6 ∧
    (decodeFields v).fracLength ≤ 5 ∧ _ := prep_range v h
  have hfrac : (decodeFields v).fraction < 2 ^ 5 := by
    calc (decodeFields v).fraction
        = (magnitude v).toNat % 2 ^ (decodeFields v).fracLength := by rw [decodeFields_of_finite h]
      _ < 2 ^ (decodeFields v).fracLength := Nat.mod_lt _ (by positivity)
      _ ≤ 2 ^ 5 := Nat.pow_le_pow_right (by omega) hfl
  refine ⟨?_, Nat.mod_eq_of_lt (by omega), Nat.mod_eq_of_lt hfrac⟩
  exact BitVec.toInt_ofInt_eq_self (by omega) (by omega) (by omega)

/-- Settles O16: the byte after sign removal has a run (`regimeRun_spec`), the general path reads scale, fraction
length and fraction off it, and the ports hold them. -/
theorem decodeReadsTheRegimeRun : Obligations.DecodeReadsTheRegimeRun := by
  intro s v h
  obtain ⟨hpos, hlt⟩ := magnitude_range v h
  obtain ⟨hkind, hrun⟩ := regimeRun_spec hpos hlt
  obtain ⟨hk, hfl, hfrac⟩ := decodedPorts_lossless h
  have hfields := decodeFields_of_finite h
  rw [hkind] at hfields
  refine ⟨decodedPorts (decodeFields v), magnitude v, (regimeRun (magnitude v)).2, exec_decode s v, ?_, ?_, ?_, rfl,
    hrun.one_le, hrun.le_seven, hrun.equal, hrun.ended, ?_, ?_, ?_⟩
  · simp only [decodedPorts, hfields]; rfl
  · exact (decodeFields_finite v h).1
  · exact (decodeFields_finite v h).2
  · rw [hk, hfields]
  · rw [hfl, hfields]; rfl
  · rw [hfrac, hfl, hfields]

end Sys2Proof.Machine
end

section
/-! The regime encoder: REGIME (42_regime_encoder.md R100 to R105). -/

namespace Sys2Proof.Machine

/-- A scale of 6 or more fills the word with ones (R101). -/
theorem regimeEncode_of_six_le {k : Int} (h : 6 ≤ k) : regimeEncode k = { pat := 0x7F, len := 7, fl := 0 } := by
  simp only [regimeEncode, regimePattern, if_pos h]

/-- A scale of -7 or less fills the word with zeros (R102). -/
theorem regimeEncode_of_le_neg_seven {k : Int} (h : k ≤ -7) :
    regimeEncode k = { pat := 0x00, len := 7, fl := 0 } := by
  simp only [regimeEncode, regimePattern, if_neg (by omega : ¬ 6 ≤ k), if_pos h]

/-- A non-negative scale below the saturated ones is a run of ones, one longer than the scale, and a zero (R103). -/
theorem regimeEncode_natCast {n : Nat} (h : n ≤ 5) :
    regimeEncode n = { pat := (2 ^ (n + 1) - 1) * 2, len := n + 2, fl := 5 - n } := by
  have hfl : 7 - (n + 2) = 5 - n := by omega
  simp only [regimeEncode, regimePattern, if_neg (by omega : ¬ (6 : Int) ≤ n), if_neg (by omega : ¬ (n : Int) ≤ -7),
    if_pos (by omega : (0 : Int) ≤ n), show ((n : Int) + 1).toNat = n + 1 by omega,
    show ((n : Int) + 2).toNat = n + 2 by omega, Nat.shiftLeft_eq, Nat.one_mul, pow_one, hfl]

/-- A negative scale above the flushed ones is the single bit 1, and its length counts the zeros before it (R104). -/
theorem regimeEncode_neg_natCast {n : Nat} (hpos : 1 ≤ n) (hle : n ≤ 6) :
    regimeEncode (-(n : Int)) = { pat := 1, len := n + 1, fl := 6 - n } := by
  have hfl : 7 - (n + 1) = 6 - n := by omega
  simp only [regimeEncode, regimePattern, if_neg (by omega : ¬ (6 : Int) ≤ -n),
    if_neg (by omega : ¬ -(n : Int) ≤ -7), if_neg (by omega : ¬ (0 : Int) ≤ -n),
    show (- -(n : Int) + 1).toNat = n + 1 by omega, hfl]

/-- Settles O28: REGIME drives the encoder's field on its ports, and the field is the table's in each of its four
cases. -/
theorem regimeFollowsItsTable : Obligations.RegimeFollowsItsTable := by
  intro s k
  rw [exec_regime]
  refine ⟨fun hhigh => ?_, fun hlow => ?_, fun n hn hk => ?_, fun n hpos hle hk => ?_⟩
  · rw [regimeEncode_of_six_le hhigh]; rfl
  · rw [regimeEncode_of_le_neg_seven hlow]; rfl
  · rw [hk, regimeEncode_natCast hn]; rfl
  · rw [hk, regimeEncode_neg_natCast hpos hle]; rfl

end Sys2Proof.Machine
end

section
/-! The adder's degenerate table: ADD and SUB on zero, the sentinel and exact inverses (44_add_sub.md R131, R137). -/

namespace Sys2Proof.Machine

/-- Zero is its own two's complement (R11). -/
@[simp] theorem neg8_zero : neg8 0x00 = 0x00 := (neg8_eq_self _).mpr (.inl rfl)

/-- The sentinel is its own two's complement (R11). -/
@[simp] theorem neg8_sentinel : neg8 0x80 = 0x80 := (neg8_eq_self _).mpr (.inr rfl)

/-- Two's complement moves across an equation (R11). -/
theorem neg8_eq_iff (x y : Byte) : neg8 x = y ↔ x = neg8 y :=
  ⟨fun h => h ▸ (neg8_neg8 x).symm, fun h => h ▸ neg8_neg8 y⟩

/-- The first line of the table (R131). -/
@[simp] theorem add_zero_left (b : Byte) : add 0x00 b = b := if_pos rfl

/-- The second line of the table; where the first one matches it agrees (R131). -/
@[simp] theorem add_zero_right (a : Byte) : add a 0x00 = a := by
  by_cases ha : a = zero8
  · rw [ha]; exact add_zero_left 0x00
  · exact (if_neg ha).trans (if_pos rfl)

/-- Past the lines for zero, a sentinel operand decides the sum (R131). -/
theorem add_of_sentinel {a b : Byte} (ha : a ≠ 0x00) (hb : b ≠ 0x00) (h : a = 0x80 ∨ b = 0x80) :
    add a b = 0x80 :=
  (if_neg ha).trans ((if_neg hb).trans (if_pos h))

/-- The sentinel absorbs every right operand, zero by the table's second line (R131). -/
@[simp] theorem add_sentinel_left (b : Byte) : add 0x80 b = 0x80 := by
  by_cases hb : b = 0x00
  · rw [hb, add_zero_right]
  · exact add_of_sentinel (by decide) hb (.inl rfl)

/-- The sentinel absorbs every left operand, zero by the table's first line (R131). -/
@[simp] theorem add_sentinel_right (a : Byte) : add a 0x80 = 0x80 := by
  by_cases ha : a = 0x00
  · rw [ha, add_zero_left]
  · exact add_of_sentinel ha (by decide) (.inr rfl)

/-- Past the lines for zero and the sentinel, exact inverses cancel (R131). -/
theorem add_of_inverse {a b : Byte} (ha : a ≠ 0x00) (hb : b ≠ 0x00) (ha' : a ≠ 0x80) (hb' : b ≠ 0x80)
    (h : a = neg8 b) : add a b = 0x00 :=
  (if_neg ha).trans ((if_neg hb).trans ((if_neg (not_or.mpr ⟨ha', hb'⟩)).trans (if_pos h)))

/-- A byte and its two's complement cancel, the sentinel excepted (R131). -/
theorem add_neg8_self (a : Byte) : add a (neg8 a) = if a = 0x80 then 0x80 else 0x00 := by
  by_cases hzero : a = 0x00
  · rw [hzero, add_zero_left, neg8_zero, if_neg (by decide)]
  by_cases hnar : a = 0x80
  · rw [hnar, add_sentinel_left, if_pos rfl]
  have hnegZero : neg8 a ≠ 0x00 := by rwa [Ne, neg8_eq_iff, neg8_zero]
  have hnegNar : neg8 a ≠ 0x80 := by rwa [Ne, neg8_eq_iff, neg8_sentinel]
  rw [if_neg hnar, add_of_inverse hzero hnegZero hnar hnegNar (neg8_neg8 a).symm]

/-- Settles O36: one lemma about `add` per line of the table. -/
theorem addFollowsItsDegenerateTable : Obligations.AddFollowsItsDegenerateTable := by
  intro s a b
  simp only [exec_add]
  refine ⟨fun ha => ?_, fun _ hb => ?_, fun ha hb h => ?_, fun ha hb ha' hb' h => ?_⟩
  · rw [ha, add_zero_left]
  · rw [hb, add_zero_right]
  · rw [add_of_sentinel ha hb h]
  · rw [add_of_inverse ha hb ha' hb' h]

/-- Settles O38: SUB runs ADD's own function on `neg8 b`, so each corner case is a line of ADD's table; the example
is computed. -/
theorem subAddsTheNegation : Obligations.SubAddsTheNegation := by
  intro s a b
  have hexample : add 0x50 (neg8 0x40) = 0x20 := by decide +kernel
  refine ⟨fun d => rfl, ⟨add a (neg8 b), exec_sub s a b, exec_add s a (neg8 b)⟩, ?_⟩
  simp only [exec_sub, neg8_zero, neg8_sentinel, add_zero_left, add_zero_right, add_sentinel_left,
    add_sentinel_right, add_neg8_self, hexample, and_self]

end Sys2Proof.Machine
end


section
/-! The activation unit: SIGMOID moves bits of its operand and decodes nothing (47_sigmoid.md R160). -/

namespace Sys2Proof.Machine

/-- The arithmetic shift moves the bits that stay in the byte down by `n` (R10). -/
theorem getLsbD_asr8_of_lt (x : Byte) {n i : Nat} (h : i + n < 8) : (asr8 x n).getLsbD i = x.getLsbD (i + n) := by
  have hi : ¬ 8 ≤ i := by omega
  rw [asr8, BitVec.getLsbD_sshiftRight, Nat.add_comm n i, if_pos h, decide_eq_false hi, Bool.not_false, Bool.true_and]

/-- The arithmetic shift copies bit 7 to the places it vacates (R10). -/
theorem getLsbD_asr8_of_le (x : Byte) {n i : Nat} (hi : i < 8) (h : 8 ≤ i + n) :
    (asr8 x n).getLsbD i = x.getLsbD 7 := by
  have hin : ¬ n + i < 8 := by omega
  rw [asr8, BitVec.getLsbD_sshiftRight, if_neg hin, decide_eq_false (Nat.not_le.mpr hi), Bool.not_false,
    Bool.true_and, BitVec.msb_eq_getLsbD_last]

/-- Settles O47: the code is the table's row for SIGMOID (`decode_of_op`), and the byte driven is the arithmetic
shift by 2 of the flipped byte: bits 7 and 6 are vacated, bits 5 to 0 are moved. -/
theorem sigmoidShiftsTheFlippedByte : Obligations.SigmoidShiftsTheFlippedByte := by
  intro s v
  have hdecode (b : Byte) (d : Double) : decode { op := 0x8, a := v, b := b, d := d } = .ok (.sigmoid v) := by
    obtain ⟨-, -, -, -, -, -, -, -, hsigmoid, -⟩ := decode_of_op { op := 0x8, a := v, b := b, d := d }
    exact hsigmoid rfl
  have hvacated {i : Nat} (hi : i < 8) (h : 6 ≤ i) : (sigmoid v).getLsbD i = (v ^^^ 0x80).getLsbD 7 :=
    getLsbD_asr8_of_le _ hi (by omega)
  have hmoved {i : Nat} (h : i < 6) : (sigmoid v).getLsbD i = (v ^^^ 0x80).getLsbD (i + 2) :=
    getLsbD_asr8_of_lt _ (by omega)
  exact ⟨v ^^^ 0x80, sigmoid v, rfl, hdecode, exec_sigmoid s v, hvacated (by omega) (by omega),
    hvacated (by omega) (by omega), hmoved (by omega), fun i hi => hmoved (by omega)⟩

end Sys2Proof.Machine
end

section
/-! Nothing is raised: every admitted operation drives a result, every other code is refused (60_exceptions.md R170). -/

namespace Sys2Proof

/-- The decoder refuses exactly the requests with a reserved operation code (R59). -/
theorem decode_eq_error_iff (r : Request) :
    decode r = .error (.reservedOp r.op) ↔ ¬ r.op.toNat ≤ 8 := by
  refine ⟨fun h hle => ?_, fun h => ?_⟩
  · unfold decode at h
    interval_cases r.op.toNat <;> nomatch h
  · obtain ⟨-, -, -, -, -, -, -, -, -, hreserved⟩ := decode_of_op r
    exact hreserved (Nat.lt_of_not_le h)

end Sys2Proof

namespace Sys2Proof.Machine

/-- Everything a step can answer, told from the operation code alone: an admitted code drives a group, any other
is refused. -/
theorem step_drives_or_refuses (s : State) :
    (Admitted s ∧ ∃ r, step s = drive r s) ∨ (¬ Admitted s ∧ step s = .refused (.reservedOp s.op)) := by
  have hreserved : decode s.request = .error (.reservedOp s.op) ↔ ¬ Admitted s := decode_eq_error_iff s.request
  obtain ⟨i, hdecode, hstep⟩ | ⟨hdecode, hstep⟩ := step_cases s
  · have hadm : Admitted s := by
      by_contra hnot
      exact nomatch hdecode.symm.trans (hreserved.mpr hnot)
    exact .inl ⟨hadm, hstep ▸ exec_drives s i⟩
  · exact .inr ⟨hreserved.mp hdecode, hstep⟩

/-- Settles O3: of the two answers of `step_drives_or_refuses`, `drive` is a next state, and the refusal names the
code on the port. -/
theorem onlyReservedCodesHaveNoResult : Obligations.OnlyReservedCodesHaveNoResult := by
  intro s
  obtain ⟨-, r, hstep⟩ | ⟨hnot, hstep⟩ := step_drives_or_refuses s <;> rw [hstep]
  · exact ⟨drive_not_fault s r, fun _ => ⟨r, rfl⟩, fun e he => absurd he (drive_not_refused s r e)⟩
  · exact ⟨nofun, fun hadm => absurd hadm hnot, fun e he => ⟨hnot, by cases he; rfl⟩⟩

end Sys2Proof.Machine
end

section
/-! The frame of every operation: the driven group is all it writes (70_reset_and_hazards.md R193). -/

namespace Sys2Proof.Machine

/-- The one inversion of `exec`'s next states: the state before, with some group driven. -/
theorem exec_next {i : Instr} {s t : State} (h : exec i s = .next t) : ∃ r, t = { s with out := some r } := by
  obtain ⟨r, hdrives⟩ := exec_drives s i
  exact ⟨r, (drive_next s).mp (hdrives ▸ h)⟩

/-- Settles O5: the next state is the one before with one group driven (`exec_next`), so the ports and the
parameters are the same fields. -/
theorem onlyTheResultChanges : Obligations.OnlyTheResultChanges := by
  intro i s t h
  obtain ⟨r, rfl⟩ := exec_next h
  exact ⟨rfl, rfl, rfl, rfl, rfl, r, rfl⟩

end Sys2Proof.Machine
end

section
/-! Requests and their encoding: the decoder and the encoder are inverse on what an operation reads
(30_encoding.md R56 to R59). -/

namespace Sys2Proof

/-- Everything the decoder can answer: the row of the table (R57) of the code on port `op`, with the operands
that row reads. -/
theorem decode_ok_cases {r : Request} {i : Instr} (h : decode r = .ok i) :
    (r.op = 0 ∧ i = .decode r.a) ∨ (r.op = 1 ∧ i = .p2d r.a) ∨ (r.op = 2 ∧ i = .d2p r.d) ∨
    (r.op = 3 ∧ i = .regime r.a.toInt) ∨ (r.op = 4 ∧ i = .add r.a r.b) ∨ (r.op = 5 ∧ i = .sub r.a r.b) ∨
    (r.op = 6 ∧ i = .mul r.a r.b) ∨ (r.op = 7 ∧ i = .div r.a r.b) ∨ (r.op = 8 ∧ i = .sigmoid r.a) := by
  unfold decode at h
  split at h <;> cases h
  all_goals rename_i hop; simp [BitVec.toNat_eq, hop]

/-- The operand byte of an encoded scale reads back as the scale, when the byte can hold it (R58). -/
theorem toInt_ofInt_of_wellFormed {k : Int} (h : (Instr.regime k).wellFormed = true) :
    (BitVec.ofInt 8 k).toInt = k := by
  obtain ⟨hlow, hhigh⟩ : -128 ≤ k ∧ k ≤ 127 := of_decide_eq_true h
  exact BitVec.toInt_ofInt_eq_self (by omega) (by omega) (by omega)

/-- Settles O11: each encoding has its row's code and writes the operands on the ports that row reads; only REGIME's
operand changes its form, and a well-formed scale comes back. -/
theorem decodeOfEncodeIsTheInstruction : Obligations.DecodeOfEncodeIsTheInstruction := by
  intro i hwf
  cases i with
  | regime k =>
    calc decode (encode (.regime k)) = .ok (.regime (BitVec.ofInt 8 k).toInt) := rfl
      _ = .ok (.regime k) := by rw [toInt_ofInt_of_wellFormed hwf]
  | _ => rfl

/-- Settles O12: by the row the request decodes by (`decode_ok_cases`); for REGIME, the scale read from the byte is
well formed and encodes to the byte. -/
theorem encodeOfDecodeKeepsReadFields : Obligations.EncodeOfDecodeKeepsReadFields := by
  intro r i h
  obtain ⟨hop, rfl⟩ | ⟨hop, rfl⟩ | ⟨hop, rfl⟩ | ⟨hop, rfl⟩ | ⟨hop, rfl⟩ | ⟨hop, rfl⟩ | ⟨hop, rfl⟩ |
    ⟨hop, rfl⟩ | ⟨hop, rfl⟩ := decode_ok_cases h
  case inr.inr.inr.inl =>
    exact ⟨regime_operand_fits r.a, hop.symm, fun _ => BitVec.ofInt_toInt, by rw [hop]; nofun, by rw [hop]; nofun⟩
  all_goals simp [encode, Instr.wellFormed, Machine.readsA, Machine.readsB, Machine.readsD, hop]

/-- A request is determined by its four ports. -/
theorem request_eq {r r' : Request} (hop : r.op = r'.op) (ha : r.a = r'.a) (hb : r.b = r'.b) (hd : r.d = r'.d) :
    r = r' := by
  cases r; cases r'; simp_all

/-- Joining a byte below a word multiplies the word by 256 (R56). -/
theorem toNat_append_byte {n : Nat} (x : BitVec n) (y : Byte) : (x ++ y).toNat = x.toNat * 256 + y.toNat := by
  rw [BitVec.toNat_append, ← Nat.shiftLeft_add_eq_or_of_lt y.isLt, Nat.shiftLeft_eq]

/-- The number of a request word, read off its fields (R56). -/
theorem requestWord_toNat (r : Request) :
    (requestWord r).toNat = r.op.toNat * 65536 + r.a.toNat * 256 + r.b.toNat := by
  rw [requestWord, toNat_append_byte, toNat_append_byte]
  omega

/-- The fields of a request word are quotients and remainders of its number (R56). -/
theorem requestOfWord_toNat (w : BitVec 20) (d : Double) :
    (requestOfWord w d).op.toNat = w.toNat / 65536 ∧ (requestOfWord w d).a.toNat = w.toNat / 256 % 256 ∧
      (requestOfWord w d).b.toNat = w.toNat % 256 := by
  have hw := w.isLt
  simp only [requestOfWord, BitVec.extractLsb'_toNat, Nat.shiftRight_eq_div_pow, pow_zero, Nat.div_one]
  exact ⟨by omega, trivial, trivial⟩

/-- Settles O13: the word's number is its fields in base 256, so fields and word determine each other. -/
theorem requestWordHoldsItsFields : Obligations.RequestWordHoldsItsFields := by
  refine ⟨fun r => ⟨?_, requestWord_toNat r⟩, fun w d => ?_⟩
  · obtain ⟨hop, ha, hb⟩ := requestOfWord_toNat (requestWord r) r.d
    rw [requestWord_toNat] at hop ha hb
    have hopLt := r.op.isLt
    have haLt := r.a.isLt
    have hbLt := r.b.isLt
    exact request_eq (BitVec.eq_of_toNat_eq (by omega)) (BitVec.eq_of_toNat_eq (by omega))
      (BitVec.eq_of_toNat_eq (by omega)) rfl
  · obtain ⟨hop, ha, hb⟩ := requestOfWord_toNat w d
    apply BitVec.eq_of_toNat_eq
    rw [requestWord_toNat, hop, ha, hb]
    omega

/-- Settles O14: each word is decoded by evaluation. -/
theorem tableWordsDecodeAsWritten : Obligations.TableWordsDecodeAsWritten := by
  unfold Obligations.TableWordsDecodeAsWritten
  decide

end Sys2Proof
end

section
/-! One step: what it runs, what it may read, and what a sequence of steps answers (10_state.md R24, R25;
20_memory.md R43, R46). -/

namespace Sys2Proof

/-- The decoder looks at the ports that the operation reads and at no other (R25). -/
theorem decode_congr {r r' : Request} (hop : r.op = r'.op) (ha : Machine.readsA r.op = true → r.a = r'.a)
    (hb : Machine.readsB r.op = true → r.b = r'.b) (hd : Machine.readsD r.op = true → r.d = r'.d) :
    decode r = decode r' := by
  cases h : decode r with
  | error e =>
    cases decode_error h
    rw [hop, eq_comm, decode_eq_error_iff, ← hop]
    exact (decode_eq_error_iff r).mp h
  | ok i =>
    obtain ⟨op, a, b, d⟩ := r
    obtain ⟨op', a', b', d'⟩ := r'
    subst hop
    obtain ⟨hop, rfl⟩ | ⟨hop, rfl⟩ | ⟨hop, rfl⟩ | ⟨hop, rfl⟩ | ⟨hop, rfl⟩ | ⟨hop, rfl⟩ | ⟨hop, rfl⟩ |
      ⟨hop, rfl⟩ | ⟨hop, rfl⟩ := decode_ok_cases h
    all_goals
      simp_all [decode, Machine.readsA, Machine.readsB, Machine.readsD]

end Sys2Proof

namespace Sys2Proof.Machine

/-- Settles O1: `step` is defined by what the request decodes to. -/
theorem stepRunsTheDecodedRequest : Obligations.StepRunsTheDecodedRequest := by
  intro s i h
  simp only [step, h]

/-- Settles O2: of the two answers of `step_drives_or_refuses`, a code of 9 or more leaves the refusal. -/
theorem reservedCodesAreRefused : Obligations.ReservedCodesAreRefused := by
  intro s hop
  obtain ⟨hadm, -⟩ | ⟨-, hstep⟩ := step_drives_or_refuses s
  · exact absurd hadm (Nat.not_le.mpr hop)
  · exact hstep

/-- The one inversion of `step`'s next states: the state before, with some group driven. -/
theorem step_next {s t : State} (h : step s = .next t) : ∃ r, t = { s with out := some r } := by
  obtain ⟨i, -, hstep⟩ | ⟨-, hstep⟩ := step_cases s
  · exact exec_next (hstep ▸ h)
  · exact nomatch hstep.symm.trans h

/-- What an operation drives depends on its operands and the parameters alone (R20). -/
theorem driven_exec_congr (i : Instr) {s s' : State} (hpar : s.params = s'.params) :
    driven (exec i s) = driven (exec i s') := by
  cases i <;> simp only [exec_decode, exec_p2d, exec_d2p, exec_regime, exec_add, exec_sub, exec_mul, exec_div,
    exec_sigmoid, driven, hpar]

/-- Settles O6: the decoder ignores the ports that are not read (`decode_congr`), and the operation it selects reads
no port (`driven_exec_congr`). -/
theorem unreadPortsHaveNoEffect : Obligations.UnreadPortsHaveNoEffect := by
  intro s s' hop hpar ha hb hd
  have hdecode : decode s.request = decode s'.request := decode_congr hop ha hb hd
  unfold step
  rw [← hdecode]
  cases decode s.request with
  | ok i => exact driven_exec_congr i hpar
  | error e => cases e; rfl

/-- Settles O7: the next state differs in the driven group alone, which the next step ignores. -/
theorem repeatedInvocationChangesNothing : Obligations.RepeatedInvocationChangesNothing := by
  intro s t h
  obtain ⟨r, rfl⟩ := step_next h
  rw [step_withOut, h]

/-- Presenting a request replaces what the ports carried, and a step leaves nothing else behind: the next request is
answered as if the step had not been made (R46). -/
theorem step_present_of_next {s t : State} {r : Request} (h : step (s.present r) = .next t) (r' : Request) :
    step (t.present r') = step (s.present r') := by
  obtain ⟨res, rfl⟩ := step_next h
  exact step_withOut (s.present r') (some res)

/-- Settles O8, by induction on the requests: the first is answered in isolation, and it does not change the answers
to the others (`step_present_of_next`). -/
theorem sequencesServeEachRequestInIsolation : Obligations.SequencesServeEachRequestInIsolation := by
  intro s rs
  induction rs generalizing s with
  | nil => rfl
  | cons r rs ih =>
    unfold serve
    cases h : step (s.present r) with
    | next t =>
      have hrest : (rs.map fun r' => driven (step (t.present r'))) = rs.map fun r' => driven (step (s.present r')) :=
        List.map_congr_left fun r' _ => congrArg driven (step_present_of_next h r')
      rw [List.map_cons, h]
      exact congrArg (t.out :: ·) ((ih t).trans hrest)
    | fault f => cases f
    | refused e =>
      rw [List.map_cons, h]
      exact congrArg (none :: ·) (ih s)

/-- Settles O10: nothing is driven at reset, so the invariant has nothing to hold of; the parameters are computed. -/
theorem resetComesBeforeAnyInvocation : Obligations.ResetComesBeforeAnyInvocation :=
  ⟨nofun, rfl, by decide, rfl⟩

end Sys2Proof.Machine
end

section
/-! The thirteen regimes (30_encoding.md R54), and the invariant on what is driven (10_state.md R27 to R30). -/

namespace Sys2Proof.Machine

/-- The finite non-zero bytes are those that are neither zero nor the sentinel (R51). -/
theorem isFiniteNonzero_iff (v : Byte) : isFiniteNonzero v = true ↔ v ≠ zero8 ∧ v ≠ nar := by
  simp [isFiniteNonzero]

/-- A byte is zero, the sentinel, or finite and non-zero (R51). -/
theorem byte_cases (v : Byte) : v = 0x00 ∨ v = 0x80 ∨ isFiniteNonzero v = true := by
  by_cases hzero : v = 0x00
  · exact .inl hzero
  by_cases hnar : v = 0x80
  · exact .inr (.inl hnar)
  · exact .inr (.inr ((isFiniteNonzero_iff v).mpr ⟨hzero, hnar⟩))

/-- The run of a magnitude byte selects the row of the table that holds the byte (R54, R74). -/
theorem regimeRun_row (m : Byte) : 1 ≤ m.toNat → m.toNat ≤ 127 →
    ∃ row ∈ regimeTable, row.first ≤ m.toNat ∧ m.toNat ≤ row.last ∧
      (if (regimeRun m).1 then ((regimeRun m).2 : Int) - 1 else -((regimeRun m).2 : Int)) = row.k ∧
      fracLengthOfRun (regimeRun m).2 = row.fl ∧ m.toNat % 2 ^ row.fl = m.toNat - row.first := by
  revert m; decide +kernel

/-- What each row says of its scale: the regime field leaves the row's fraction length, and the row's bytes are
the field followed by every fraction of that length (R54, R103 to R105). -/
theorem regimeTable_spec : ∀ row ∈ regimeTable, -6 ≤ row.k ∧ row.k ≤ 6 ∧ (row.k = 6 → row.fl = 0) ∧
    row.fl ≤ 5 ∧ row.fl ≤ row.k + 6 ∧
    (regimeEncode row.k).fl = row.fl ∧ (regimeEncode row.k).pat * 2 ^ row.fl = row.first ∧
    row.last + 1 = row.first + 2 ^ row.fl ∧ row.last ≤ 127 := by
  decide

/-- The fields of a finite non-zero byte are those of its row of the table (R54, R71). -/
theorem decodeFields_row {v : Byte} (h : isFiniteNonzero v = true) :
    ∃ row ∈ regimeTable, row.first ≤ (magnitude v).toNat ∧ (magnitude v).toNat ≤ row.last ∧
      decodeFields v =
        { sign := signBit v, k := row.k, fraction := (magnitude v).toNat - row.first, fracLength := row.fl,
          isZero := false, isInfinity := false } := by
  obtain ⟨hpos, hle⟩ := magnitude_range v h
  obtain ⟨row, hrow, hfirst, hlast, hk, hfl, hfrac⟩ := regimeRun_row (magnitude v) hpos hle
  refine ⟨row, hrow, hfirst, hlast, ?_⟩
  rw [decodeFields_of_finite h, hk, hfl, hfrac]

/-- Settles O17: the ports hold the fields of the byte's row. -/
theorem decodeFollowsTheThirteenRegimes : Obligations.DecodeFollowsTheThirteenRegimes := by
  intro s v h
  obtain ⟨row, hrow, hfirst, hlast, hfields⟩ := decodeFields_row h
  refine ⟨row, hrow, hfirst, hlast, ?_⟩
  rw [exec_decode, hfields]
  rfl

/-- Regime field and fraction of a finite non-zero byte, put together, are its magnitude byte (R54, R76). -/
theorem regimeEncode_decodeFields {v : Byte} (h : isFiniteNonzero v = true) :
    (regimeEncode (decodeFields v).k).fl = (decodeFields v).fracLength ∧
      (regimeEncode (decodeFields v).k).pat * 2 ^ (decodeFields v).fracLength + (decodeFields v).fraction =
        (magnitude v).toNat ∧
      (decodeFields v).fraction < 2 ^ (decodeFields v).fracLength := by
  obtain ⟨row, hrow, hfirst, hlast, hfields⟩ := decodeFields_row h
  obtain ⟨-, -, -, -, -, hfl, hpat, hcount, -⟩ := regimeTable_spec row hrow
  rw [hfields]
  refine ⟨hfl, ?_, ?_⟩
  · rw [hpat]; exact Nat.add_sub_cancel' hfirst
  · exact (by omega : (magnitude v).toNat - row.first < 2 ^ row.fl)

/-- The ranges of scale and fraction length (R75). -/
theorem decodeFields_range {v : Byte} (h : isFiniteNonzero v = true) :
    -6 ≤ (decodeFields v).k ∧ (decodeFields v).k ≤ 6 ∧ (decodeFields v).fracLength ≤ 5 := by
  obtain ⟨hk, hk', hfl, -⟩ := prep_range v h
  exact ⟨hk, hk', hfl⟩

/-- The pattern of every scale fits its port (R28, R104). -/
theorem regimeEncode_range (k : Int) : 2 ≤ (regimeEncode k).len ∧ (regimeEncode k).len ≤ 7 ∧
    (regimeEncode k).fl = 7 - (regimeEncode k).len ∧ (regimeEncode k).pat < 2 ^ (regimeEncode k).len := by
  by_cases hhigh : 6 ≤ k
  · rw [regimeEncode_of_six_le hhigh]; decide
  by_cases hlow : k ≤ -7
  · rw [regimeEncode_of_le_neg_seven hlow]; decide
  have hk1 : -6 ≤ k := by omega
  have hk2 : k ≤ 5 := by omega
  interval_cases k <;> decide

/-- The ports of the regime group hold the field of every scale without loss (R28). -/
theorem regimePorts_lossless (k : Int) :
    (regimePorts (regimeEncode k)).pat.toNat = (regimeEncode k).pat ∧
      (regimePorts (regimeEncode k)).len.toNat = (regimeEncode k).len ∧
      (regimePorts (regimeEncode k)).fl.toNat = (regimeEncode k).fl := by
  obtain ⟨-, hlen, hfl, hpat⟩ := regimeEncode_range k
  have hpat7 : (regimeEncode k).pat < 2 ^ 7 := hpat.trans_le (Nat.pow_le_pow_right (by omega) hlen)
  exact ⟨Nat.mod_eq_of_lt hpat7, Nat.mod_eq_of_lt (by omega), Nat.mod_eq_of_lt (by omega)⟩

/-- Settles O18: both units narrow without loss, so what they drive is `regimeEncode_decodeFields` on the ports. -/
theorem regimeOfTheDecodedScaleRebuildsTheByte : Obligations.RegimeOfTheDecodedScaleRebuildsTheByte := by
  intro s v h
  obtain ⟨hk, hfl, hfrac⟩ := decodedPorts_lossless h
  obtain ⟨hfl', hmag, -⟩ := regimeEncode_decodeFields h
  obtain ⟨hpat, -, hregFl⟩ := regimePorts_lossless (decodeFields v).k
  refine ⟨_, regimePorts (regimeEncode (decodeFields v).k), exec_decode s v, by rw [hk, exec_regime], ?_, ?_⟩
  · exact BitVec.eq_of_toNat_eq (by rw [hregFl, hfl, hfl'])
  · rw [hpat, hregFl, hfrac, hfl', hmag]

/-- What DECODE drives is in range for every byte (R27, R54). -/
theorem decodedInRange_decodedPorts (v : Byte) : decodedInRange (decodedPorts (decodeFields v)) = true := by
  obtain rfl | rfl | h := byte_cases v
  · rfl
  · rfl
  · obtain ⟨row, hrow, hfirst, hlast, hfields⟩ := decodeFields_row h
    obtain ⟨hk, hfl, hfrac⟩ := decodedPorts_lossless h
    obtain ⟨-, -, hlt⟩ := regimeEncode_decodeFields h
    have hregime : (regimeTable.any fun row => row.k == (decodedPorts (decodeFields v)).k.toInt &&
        row.fl == (decodedPorts (decodeFields v)).fl.toNat) = true :=
      List.any_eq_true.mpr ⟨row, hrow, by rw [hk, hfl, hfields]; simp⟩
    obtain ⟨hzero, hinf⟩ := decodeFields_finite v h
    unfold decodedInRange
    rw [hregime, hfrac, hfl, decide_eq_true hlt, show (decodedPorts (decodeFields v)).isZero = false from hzero,
      show (decodedPorts (decodeFields v)).isInfinity = false from hinf]
    rfl

/-- What REGIME drives is in range for every scale (R28). -/
theorem regimeInRange_regimePorts (k : Int) : regimeInRange (regimePorts (regimeEncode k)) = true := by
  obtain ⟨hlen, -, hfl, hpat⟩ := regimeEncode_range k
  obtain ⟨hpat', hlen', hfl'⟩ := regimePorts_lossless k
  simp only [regimeInRange, hpat', hlen', hfl', hlen, ← hfl, hpat, decide_true, Bool.and_self]

/-- A step that drives a fitting result leads to a state that meets the invariant. -/
theorem outFits_of_drive {res : Result} {s t : State} (h : drive res s = .next t)
    (hfits : resultFits s.op res = true) : OutFits t := by
  obtain rfl := (drive_next s).mp h
  intro r hr
  cases hr
  exact hfits

/-- Settles O9: the operation the ports select drives the group of its row of the table (`decode_ok_cases`), and the
two groups with ranges are in range. -/
theorem drivenResultsFitTheirPorts : Obligations.DrivenResultsFitTheirPorts := by
  intro s t _ hstep
  obtain ⟨i, hdecode, hexec⟩ | ⟨-, hrefused⟩ := step_cases s
  case inr => exact nomatch hrefused.symm.trans hstep
  rw [hexec] at hstep
  obtain ⟨hop, rfl⟩ | ⟨hop, rfl⟩ | ⟨hop, rfl⟩ | ⟨hop, rfl⟩ | ⟨hop, rfl⟩ | ⟨hop, rfl⟩ | ⟨hop, rfl⟩ |
    ⟨hop, rfl⟩ | ⟨hop, rfl⟩ := decode_ok_cases hdecode
  all_goals
    rw [request_op] at hop
    refine outFits_of_drive hstep ?_
    simp only [resultFits, hop, decodedInRange_decodedPorts, regimeInRange_regimePorts]
    rfl

end Sys2Proof.Machine
end

section
/-! Values in units of 2^-6: every encoding but the sentinel stands for an integer number of them
(30_encoding.md R53 to R55). -/

namespace Sys2Proof.Machine

/-- The value of an encoding in units of 2^-6: `M × 2^(k + 6 - fl)` with its sign (R53, R111); 0 for zero, and for
the sentinel, which has no value. -/
def sixtyFourths (v : Byte) : Int :=
  if isFiniteNonzero v then
    (if (prep v).sign then -1 else 1) * ((prep v).sig * 2 ^ ((prep v).k + 6 - (prep v).fl).toNat : Nat)
  else 0

/-- The exact magnitude of an intermediate result depends on scale and width by their difference (R112). -/
theorem scaledValue_eq (k : Int) (M W : Nat) : scaledValue k M W = M * (2 : ℚ) ^ (k - W) := by
  rw [scaledValue, zpow_sub₀ two_ne_zero, zpow_natCast]
  ring

/-- Zeros appended to significand and fraction alike change nothing (R112). -/
theorem scaledValue_mul_two_pow (k : Int) (M W n : Nat) : scaledValue k (M * 2 ^ n) (W + n) = scaledValue k M W := by
  rw [scaledValue, scaledValue, pow_add]
  push_cast
  rw [mul_div_mul_right _ _ (by positivity)]

/-- At one scale and width, magnitudes are ordered as their significands (R112). -/
theorem scaledValue_lt_iff (k : Int) {M M' W : Nat} : scaledValue k M W < scaledValue k M' W ↔ M < M' := by
  rw [scaledValue_eq, scaledValue_eq, mul_lt_mul_iff_left₀ (by positivity), Nat.cast_lt]

/-- The same order, with equality. -/
theorem scaledValue_le_iff (k : Int) {M M' W : Nat} : scaledValue k M W ≤ scaledValue k M' W ↔ M ≤ M' := by
  rw [← not_lt, scaledValue_lt_iff, not_lt]

/-- At one scale and width, the significand is determined by the magnitude. -/
theorem scaledValue_inj (k : Int) {M M' W : Nat} : scaledValue k M W = scaledValue k M' W ↔ M = M' := by
  rw [le_antisymm_iff, scaledValue_le_iff, scaledValue_le_iff, ← le_antisymm_iff]

/-- A significand of one 1 bit stands for the power of two (R112). -/
theorem scaledValue_two_pow (k : Int) (W : Nat) : scaledValue k (2 ^ W) W = (2 : ℚ) ^ k := by
  rw [scaledValue, Nat.cast_pow, Nat.cast_ofNat, div_self (by positivity), mul_one]

/-- One place further up, it stands for the next power of two (R112). -/
theorem scaledValue_two_pow_succ (k : Int) (W : Nat) : scaledValue k (2 ^ (W + 1)) W = (2 : ℚ) ^ (k + 1) := by
  rw [scaledValue_eq, Nat.cast_pow, Nat.cast_ofNat, ← zpow_natCast, ← zpow_add₀ two_ne_zero]
  congr 1
  omega

/-- A normalised significand leaves the magnitude between two powers of two (R112). -/
theorem scaledValue_range {k : Int} {M W : Nat} (hlow : 2 ^ W ≤ M) (hhigh : M < 2 ^ (W + 1)) :
    (2 : ℚ) ^ k ≤ scaledValue k M W ∧ scaledValue k M W < (2 : ℚ) ^ (k + 1) := by
  rw [← scaledValue_two_pow k W, ← scaledValue_two_pow_succ k W, scaledValue_le_iff, scaledValue_lt_iff]
  exact ⟨hlow, hhigh⟩

/-- A fraction of `W` bits, truncated to fewer bits, fits them. -/
theorem truncated_lt {F W fl : Nat} (hF : F < 2 ^ W) (hfl : fl ≤ W) : F / 2 ^ (W - fl) < 2 ^ fl := by
  rw [Nat.div_lt_iff_lt_mul (by positivity), ← pow_add, Nat.add_sub_cancel' hfl]
  exact hF

/-- Widened, a fraction of `W` bits fits the wider one. -/
theorem widened_lt {F W fl : Nat} (hF : F < 2 ^ W) (hfl : W ≤ fl) : F * 2 ^ (fl - W) < 2 ^ fl := by
  calc F * 2 ^ (fl - W) < 2 ^ W * 2 ^ (fl - W) := Nat.mul_lt_mul_of_pos_right hF (by positivity)
    _ = 2 ^ fl := by rw [← pow_add, Nat.add_sub_cancel' hfl]

/-- A fraction truncated to fewer bits and the next one bracket the magnitude (R116). -/
theorem scaledValue_truncate (k : Int) (F : Nat) {W fl : Nat} (hfl : fl ≤ W) :
    scaledValue k (2 ^ fl + F / 2 ^ (W - fl)) fl ≤ scaledValue k (2 ^ W + F) W ∧
      scaledValue k (2 ^ W + F) W < scaledValue k (2 ^ fl + (F / 2 ^ (W - fl) + 1)) fl := by
  have hpow : 2 ^ fl * 2 ^ (W - fl) = 2 ^ W := by rw [← pow_add, Nat.add_sub_cancel' hfl]
  rw [← scaledValue_mul_two_pow k _ fl (W - fl), ← scaledValue_mul_two_pow k (_ + (_ + 1)) fl (W - fl),
    Nat.add_sub_cancel' hfl, scaledValue_le_iff, scaledValue_lt_iff, Nat.add_mul, Nat.add_mul, hpow]
  exact ⟨Nat.add_le_add_left (Nat.div_mul_le_self F _) _,
    Nat.add_lt_add_left (Nat.lt_mul_of_div_lt (Nat.lt_succ_self _) (by positivity)) _⟩

/-- A fraction at least as coarse as 2^-6, counted in units of 2^-6. -/
theorem scaledValue_eq_sixtyFourths {k : Int} {W : Nat} (h : (W : Int) ≤ k + 6) (M : Nat) :
    scaledValue k M W = ((M * 2 ^ (k + 6 - W).toNat : Nat) : ℚ) / 64 := by
  obtain ⟨n, hn⟩ := Int.eq_ofNat_of_zero_le (by omega : 0 ≤ k + 6 - W)
  rw [scaledValue_eq, hn, Int.toNat_natCast, show k - W = (n : Int) - (6 : Nat) by omega,
    zpow_sub₀ two_ne_zero, zpow_natCast, zpow_natCast]
  push_cast
  ring

/-- The last fraction bit of a finite non-zero byte is worth at least 2^-6 (R54). -/
theorem prep_fl_le {v : Byte} (h : isFiniteNonzero v = true) : ((prep v).fl : Int) ≤ (prep v).k + 6 := by
  obtain ⟨row, hrow, -, -, hfields⟩ := decodeFields_row h
  obtain ⟨-, -, -, -, hle, -⟩ := regimeTable_spec row hrow
  simpa only [prep, hfields] using hle

/-- Zero (R53). -/
@[simp] theorem value_zero : value 0x00 = some 0 := rfl

/-- The sentinel has no value (R53). -/
@[simp] theorem value_sentinel : value 0x80 = none := rfl

/-- The largest positive encoding (R8). -/
theorem value_maxPos : value maxPos = some 64 := by decide +kernel

/-- The smallest positive encoding (R8). -/
theorem value_minPos : value minPos = some (1 / 64) := by decide +kernel

/-- Every byte but the sentinel is worth its number of units (R53). -/
theorem value_eq_sixtyFourths {v : Byte} (h : v ≠ 0x80) : value v = some ((sixtyFourths v : ℚ) / 64) := by
  obtain rfl | rfl | hfin := byte_cases v
  · rw [value_zero, show sixtyFourths 0x00 = 0 from rfl, Int.cast_zero, zero_div]
  · exact absurd rfl h
  · rw [value_prep v hfin, scaledValue_eq_sixtyFourths (prep_fl_le hfin), sixtyFourths, if_pos hfin]
    cases (prep v).sign <;> simp only [signed, Bool.false_eq_true, if_true, if_false] <;> push_cast <;> ring_nf

/-- Two's complement negates the number of units (R55). -/
@[simp] theorem sixtyFourths_neg8 (v : Byte) : sixtyFourths (neg8 v) = -sixtyFourths v := by
  unfold sixtyFourths
  rw [isFiniteNonzero_neg8]
  split
  · rename_i hfin
    rw [prep_neg8 v hfin]
    cases (prep v).sign <;> simp
  · rfl

/-- No byte is worth more than 64 (R54). -/
theorem sixtyFourths_range (v : Byte) : -4096 ≤ sixtyFourths v ∧ sixtyFourths v ≤ 4096 := by
  revert v; decide +kernel

/-- The next byte, as a signed integer, is worth more (R55). -/
theorem sixtyFourths_lt_succ (v : Byte) : v ≠ 0x7F → v ≠ 0x80 → sixtyFourths v < sixtyFourths (v + 1) := by
  revert v; decide +kernel

/-- Up to the first regime with a fraction bit worth 2^-5, a byte counts units (R54). -/
theorem sixtyFourths_eq_toInt (v : Byte) : -64 ≤ v.toInt → v.toInt ≤ 64 → sixtyFourths v = v.toInt := by
  revert v; decide +kernel

/-- Units increase along the signed integers that are bytes, the sentinel's excepted (R55). -/
theorem strictMonoOn_sixtyFourths :
    StrictMonoOn (fun i : Int => sixtyFourths (BitVec.ofInt 8 i)) (Set.Icc (-127) 127) := by
  refine strictMonoOn_of_lt_add_one Set.ordConnected_Icc fun i _ hi hi' => ?_
  obtain ⟨hlow, -⟩ := hi
  obtain ⟨-, hhigh⟩ := hi'
  have hi : (BitVec.ofInt 8 i).toInt = i := toInt_ofInt_of_wellFormed (by simp [Instr.wellFormed]; omega)
  have hmax : BitVec.ofInt 8 i ≠ 0x7F := fun h => by rw [h] at hi; simp at hi; omega
  have hnar : BitVec.ofInt 8 i ≠ 0x80 := fun h => by rw [h] at hi; simp at hi; omega
  calc sixtyFourths (BitVec.ofInt 8 i) < sixtyFourths (BitVec.ofInt 8 i + 1) := sixtyFourths_lt_succ _ hmax hnar
    _ = sixtyFourths (BitVec.ofInt 8 (i + 1)) := by rw [BitVec.ofInt_add]; rfl

/-- Units are ordered as signed bytes (R55). -/
theorem sixtyFourths_lt_iff {u v : Byte} (hu : u ≠ 0x80) (hv : v ≠ 0x80) :
    sixtyFourths u < sixtyFourths v ↔ u.toInt < v.toInt := by
  have hrange {w : Byte} (hw : w ≠ 0x80) : w.toInt ∈ Set.Icc (-127) 127 := by
    have hlow := BitVec.le_toInt w
    have hhigh := BitVec.toInt_lt (x := w)
    have hne : w.toInt ≠ -128 := fun h => hw (BitVec.eq_of_toInt_eq h)
    exact ⟨by omega, by omega⟩
  simpa only [BitVec.ofInt_toInt] using strictMonoOn_sixtyFourths.lt_iff_lt (hrange hu) (hrange hv)

/-- A byte with a value is not the sentinel (R53). -/
theorem ne_sentinel_of_value {v : Byte} {x : ℚ} (h : value v = some x) : v ≠ 0x80 := by
  rintro rfl
  exact nomatch h

/-- A value is its number of units over 64. -/
theorem eq_sixtyFourths_of_value {v : Byte} {x : ℚ} (h : value v = some x) : x = (sixtyFourths v : ℚ) / 64 :=
  Option.some.inj (h.symm.trans (value_eq_sixtyFourths (ne_sentinel_of_value h)))

/-- Settles O19: the integer is the number of units. -/
theorem negatedBytesHaveOppositeValues : Obligations.NegatedBytesHaveOppositeValues := by
  refine ⟨rfl, fun v hv => ?_⟩
  obtain ⟨hlow, hhigh⟩ := sixtyFourths_range v
  have hneg : neg8 v ≠ 0x80 := by rwa [Ne, neg8_eq_iff, neg8_sentinel]
  refine ⟨sixtyFourths v, hlow, hhigh, value_eq_sixtyFourths hv, ?_⟩
  rw [value_eq_sixtyFourths hneg, sixtyFourths_neg8, Int.cast_neg, neg_div]

/-- Settles O20: values are ordered as their numbers of units, and those as signed bytes. -/
theorem valuesAreOrderedAsSignedBytes : Obligations.ValuesAreOrderedAsSignedBytes := by
  intro u v x y hx hy
  rw [← sixtyFourths_lt_iff (ne_sentinel_of_value hx) (ne_sentinel_of_value hy), eq_sixtyFourths_of_value hx,
    eq_sixtyFourths_of_value hy, div_lt_div_iff_of_pos_right (by norm_num), Int.cast_lt]

/-- Bytes of equal value are equal (R55). -/
theorem value_injective {u v : Byte} {x : ℚ} (hu : value u = some x) (hv : value v = some x) : u = v := by
  have huv := valuesAreOrderedAsSignedBytes u v x x hu hv
  have hvu := valuesAreOrderedAsSignedBytes v u x x hv hu
  exact BitVec.eq_of_toInt_eq (by simp only [lt_irrefl, false_iff] at huv hvu; omega)

/-- The byte made of the regime of a scale and `f` steps of its fraction (R54). -/
def regimeByte (k : Int) (f : Nat) : Byte :=
  BitVec.ofNat 8 ((regimeEncode k).pat * 2 ^ (regimeEncode k).fl + f)

/-- The bytes of a regime below the saturated one, the next regime's first byte included, are magnitude bytes
(R54). -/
theorem regimeByte_toNat {k : Int} (h1 : -6 ≤ k) (h2 : k ≤ 5) {f : Nat} (hf : f ≤ 2 ^ (regimeEncode k).fl) :
    (regimeByte k f).toNat = (regimeEncode k).pat * 2 ^ (regimeEncode k).fl + f ∧ 1 ≤ (regimeByte k f).toNat ∧
      (regimeByte k f).toNat ≤ 127 := by
  obtain ⟨-, -, hpat, hmax⟩ := regimeEncode_middle k h1 h2
  have hmin := Nat.mul_le_mul hpat (Nat.one_le_two_pow (n := (regimeEncode k).fl))
  rw [Nat.add_mul] at hmax
  have htoNat : (regimeByte k f).toNat = (regimeEncode k).pat * 2 ^ (regimeEncode k).fl + f :=
    Nat.mod_eq_of_lt (by omega)
  exact ⟨htoNat, by omega, by omega⟩

/-- One more step of the fraction is the next byte. -/
theorem regimeByte_succ (k : Int) (f : Nat) : regimeByte k (f + 1) = regimeByte k f + 1 := by
  rw [regimeByte, ← Nat.add_assoc, BitVec.ofNat_add]
  rfl

/-- Counted in units, the bytes of a regime below the saturated one go up by equal steps, from its first byte to the
next regime's first byte (R54). -/
theorem sixtyFourths_regimeByte {k : Int} (h1 : -6 ≤ k) (h2 : k ≤ 5) :
    ((regimeEncode k).fl : Int) ≤ k + 6 ∧ ∀ f ≤ 2 ^ (regimeEncode k).fl, sixtyFourths (regimeByte k f) =
      ((2 ^ (regimeEncode k).fl + f) * 2 ^ (k + 6 - (regimeEncode k).fl).toNat : Nat) := by
  interval_cases k <;> decide +kernel

/-- The value of a byte made of a regime and steps of its fraction (R53, R54). -/
theorem value_regimeByte {k : Int} (h1 : -6 ≤ k) (h2 : k ≤ 5) {f : Nat} (hf : f ≤ 2 ^ (regimeEncode k).fl) :
    value (regimeByte k f) = some (scaledValue k (2 ^ (regimeEncode k).fl + f) (regimeEncode k).fl) := by
  obtain ⟨hfl, hunits⟩ := sixtyFourths_regimeByte h1 h2
  obtain ⟨-, -, hle⟩ := regimeByte_toNat h1 h2 hf
  have hnar : regimeByte k f ≠ 0x80 := fun h => absurd (h ▸ hle) (by decide)
  rw [value_eq_sixtyFourths hnar, hunits f hf, scaledValue_eq_sixtyFourths hfl, Int.cast_natCast]

end Sys2Proof.Machine
end

section
/-! The codec: P2D is exact, and D2P truncates (41_codec.md R80 to R92). -/

namespace Sys2Proof.Machine

/-- The general case of P2D, which every finite non-zero byte takes (R83). -/
theorem p2d_of_finite (P : Params) {v : Byte} (h : isFiniteNonzero v = true) :
    p2d P v = dbl (decodeFields v).sign ((decodeFields v).k + 1023).toNat
      ((decodeFields v).fraction <<< (52 - (decodeFields v).fracLength)) := by
  obtain ⟨hzero, hnar⟩ := (isFiniteNonzero_iff v).mp h
  simp only [p2d, hzero, hnar, if_false]

/-- The fields of the double of a finite non-zero byte: its sign, its scale with the bias, and its fraction moved to
the top of the trailing significand (R83). -/
theorem p2d_fields (P : Params) {v : Byte} (h : isFiniteNonzero v = true) :
    dblSign (p2d P v) = (decodeFields v).sign ∧ (dblExp (p2d P v) : Int) - 1023 = (decodeFields v).k ∧
      dblTrailing (p2d P v) = (decodeFields v).fraction * 2 ^ (52 - (decodeFields v).fracLength) := by
  obtain ⟨hk1, hk2, hfl⟩ := decodeFields_range h
  obtain ⟨-, -, hfrac⟩ := regimeEncode_decodeFields h
  have htrailing := widened_lt hfrac (by omega : (decodeFields v).fracLength ≤ 52)
  rw [p2d_of_finite P h, Nat.shiftLeft_eq, dblSign_dbl, dblExp_dbl _ _ _ (by omega), dblTrailing_dbl _ _ _ htrailing]
  exact ⟨rfl, by omega, rfl⟩

/-- Zero (R81). -/
@[simp] theorem p2d_zero (P : Params) : p2d P 0x00 = 0 := rfl

/-- The sentinel (R82). -/
@[simp] theorem p2d_sentinel (P : Params) : p2d P 0x80 = narDouble P := rfl

/-- No legal `P_NAR_DOUBLE` is a real number's double (R82). -/
@[simp] theorem dblExp_narDouble (P : Params) : dblExp (narDouble P) = 2047 := dblExp_dbl _ _ _ (by decide)

/-- Settles O21: zero and the sentinel take R81 and R82, and `narDouble` is assembled from the parameter's fields. -/
theorem p2DOfZeroAndSentinel : Obligations.P2DOfZeroAndSentinel := by
  intro s
  refine ⟨rfl, narDouble s.params, rfl, rfl, dblSign_dbl _ _ _, dblExp_narDouble _,
    dblTrailing_dbl _ _ _ (BitVec.isLt _), ?_, ?_⟩
  · simp only [doubleValue, dblExp_narDouble, if_true]
  · intro h
    rw [h]
    decide

/-- The value of a double with an exponent field in the normal range (R26). -/
theorem doubleValue_of_normal {d : Double} (hzero : dblExp d ≠ 0) (hmax : dblExp d ≠ 2047) :
    doubleValue d = some (signed (dblSign d) (scaledValue ((dblExp d : Int) - 1023) (2 ^ 52 + dblTrailing d) 52)) := by
  have hone : (1 : ℚ) + (dblTrailing d : ℚ) / 2 ^ 52 = ((2 ^ 52 + dblTrailing d : Nat) : ℚ) / 2 ^ 52 := by
    push_cast
    ring
  simp only [doubleValue, hmax, hzero, if_false, scaledValue, hone]

/-- +0.0 is worth zero (R26). -/
theorem doubleValue_zero : doubleValue 0 = some 0 := by decide +kernel

/-- Settles O22: the fraction moved to the top of the trailing significand has the same weight there. -/
theorem p2DIsExact : Obligations.P2DIsExact := by
  intro s v x hx
  refine ⟨p2d s.params v, exec_p2d s v, ?_⟩
  obtain rfl | rfl | hfin := byte_cases v
  · cases value_zero.symm.trans hx
    exact doubleValue_zero
  · exact nomatch hx
  obtain ⟨hk1, hk2, hfl, -, -⟩ := prep_range v hfin
  obtain ⟨hsign, hexp, htrailing⟩ := p2d_fields s.params hfin
  have hsig : 2 ^ 52 + dblTrailing (p2d s.params v) = (prep v).sig * 2 ^ (52 - (prep v).fl) := by
    rw [htrailing, prep_sig v hfin, Nat.add_mul, ← pow_add]
    congr 2
    exact (Nat.add_sub_cancel' (hfl.trans (by decide))).symm
  have hwidth : (prep v).fl + (52 - (prep v).fl) = 52 := by omega
  have hk : (decodeFields v).k = (prep v).k := rfl
  rw [← hx, value_prep v hfin, doubleValue_of_normal (by omega) (by omega), hsign, hexp, hsig,
    ← scaledValue_mul_two_pow (prep v).k (prep v).sig (prep v).fl (52 - (prep v).fl), hwidth]
  rfl

/-- The sign of a double is bit 63 alone (R26). -/
theorem dbl_not_sign (S : Bool) (E T : Nat) : dbl (!S) E T = dbl S E T ^^^ 0x8000000000000000 := by
  have hmask : (0x8000000000000000 : Double) = BitVec.ofBool true ++ 0#11 ++ 0#52 := by decide
  rw [hmask, dbl, dbl, BitVec.xor_append, BitVec.xor_append, BitVec.xor_zero, BitVec.xor_zero]
  cases S <;> rfl

/-- Two's complement changes the sign of the fields and nothing else (R55, R71). -/
theorem decodeFields_neg8 {v : Byte} (h : isFiniteNonzero v = true) :
    decodeFields (neg8 v) = { decodeFields v with sign := !(decodeFields v).sign } := by
  have hneg : isFiniteNonzero (neg8 v) = true := (isFiniteNonzero_neg8 v).trans h
  have hsign : (decodeFields (neg8 v)).sign = !(decodeFields v).sign := congrArg Prepared.sign (prep_neg8 v h)
  rw [decodeFields_of_finite h, decodeFields_of_finite hneg] at hsign ⊢
  simp only at hsign
  rw [magnitude_neg8, hsign]

/-- Settles O23: the sign of the fields is bit 63 of the double. -/
theorem p2DOfTheNegatedByteFlipsBit63 : Obligations.P2DOfTheNegatedByteFlipsBit63 := by
  intro s v h
  refine ⟨p2d s.params v, exec_p2d s v, ?_⟩
  rw [exec_p2d, p2d_of_finite _ h, p2d_of_finite _ ((isFiniteNonzero_neg8 v).trans h), decodeFields_neg8 h,
    dbl_not_sign]

/-- A positive magnitude and its sign are told from the signed value (R89). -/
theorem abs_signed {m : ℚ} (h : 0 < m) (S : Bool) : |signed S m| = m ∧ decide (signed S m < 0) = S := by
  cases S
  · exact ⟨abs_of_pos h, decide_eq_false h.le.not_gt⟩
  · exact ⟨(abs_neg m).trans (abs_of_pos h), decide_eq_true (neg_lt_zero.mpr h)⟩

/-- Packing a scale truncates the trailing significand to the regime's fraction length (R92, line 5). -/
theorem ofNat_packScale {e : Int} (h1 : -6 ≤ e) (h2 : e ≤ 5) (T : Nat) :
    BitVec.ofNat 8 (packScale e T) = regimeByte e (T / 2 ^ (52 - (regimeEncode e).fl)) := by
  simp only [packScale, regimeByte, Nat.shiftLeft_eq, Nat.shiftRight_eq_div_pow]
  interval_cases e <;> rfl

/-- What D2P makes of a magnitude, by where it lies (R92): saturation, flush, and in between the regime of its scale
and its truncated fraction. -/
inductive D2PMagnitude : ℚ → Byte → Prop where
  | zero : D2PMagnitude 0 zero8
  | saturated {y : ℚ} (h : 64 ≤ y) : D2PMagnitude y maxPos
  | flushed {y : ℚ} (hpos : 0 < y) (h : y ≤ 1 / 64) : D2PMagnitude y minPos
  | truncated {e : Int} {T : Nat} (h1 : -6 ≤ e) (h2 : e ≤ 5) (hT : T < 2 ^ 52)
      (hlow : 1 / 64 < scaledValue e (2 ^ 52 + T) 52) :
      D2PMagnitude (scaledValue e (2 ^ 52 + T) 52) (regimeByte e (T / 2 ^ (52 - (regimeEncode e).fl)))

/-- A magnitude of scale at most 5 is below 64. -/
theorem truncated_lt_64 {e : Int} {T : Nat} (h : e ≤ 5) (hT : T < 2 ^ 52) : scaledValue e (2 ^ 52 + T) 52 < 64 := by
  calc scaledValue e (2 ^ 52 + T) 52 < 2 ^ (e + 1) := (scaledValue_range (by omega) (by omega)).2
    _ ≤ 2 ^ (6 : Int) := zpow_le_zpow_right₀ (by norm_num) (by omega)
    _ = 64 := by norm_num

/-- A double below the normal range is zero or is flushed (R92, lines 1 and 4). -/
theorem d2p_magnitude_of_subnormal {d : Double} (hsub : dblExp d = 0) {x : ℚ} (h : doubleValue d = some x) :
    ∃ m, D2PMagnitude |x| m ∧ d2p d = withSign (decide (x < 0)) m := by
  have hT : dblTrailing d < 2 ^ 52 := BitVec.isLt _
  obtain rfl : signed (dblSign d) (dblTrailing d * (2 : ℚ) ^ (-1074 : Int)) = x := by
    simpa [doubleValue, hsub] using h
  by_cases hzero : dblTrailing d = 0
  · have hx : signed (dblSign d) (dblTrailing d * (2 : ℚ) ^ (-1074 : Int)) = 0 := by
      cases dblSign d <;> simp [signed, hzero]
    rw [hx, abs_zero]
    exact ⟨zero8, .zero, by simp [d2p, hsub, hzero, withSign]⟩
  · have hpos : (0 : ℚ) < dblTrailing d * (2 : ℚ) ^ (-1074 : Int) := by
      have := Nat.pos_of_ne_zero hzero
      positivity
    obtain ⟨habs, hsign⟩ := abs_signed hpos (dblSign d)
    rw [habs, hsign]
    refine ⟨minPos, .flushed hpos ?_, by simp [d2p, hsub, hzero]⟩
    calc (dblTrailing d : ℚ) * (2 : ℚ) ^ (-1074 : Int)
        ≤ 2 ^ (52 : Int) * (2 : ℚ) ^ (-1074 : Int) := by gcongr; exact_mod_cast hT.le
      _ = 2 ^ (-1022 : Int) := by rw [← zpow_add₀ two_ne_zero]; rfl
      _ ≤ 2 ^ (-6 : Int) := zpow_le_zpow_right₀ (by norm_num) (by norm_num)
      _ = 1 / 64 := by norm_num

/-- A double in the normal range, by its scale (R92, lines 3 to 5). -/
theorem d2p_magnitude_of_normal {d : Double} (hzero : dblExp d ≠ 0) (hmax : dblExp d ≠ 2047) {x : ℚ}
    (h : doubleValue d = some x) : ∃ m, D2PMagnitude |x| m ∧ d2p d = withSign (decide (x < 0)) m := by
  obtain rfl : x = _ := Option.some.inj (h.symm.trans (doubleValue_of_normal hzero hmax))
  have hT : dblTrailing d < 2 ^ 52 := BitVec.isLt _
  obtain ⟨hlow, hhigh⟩ := scaledValue_range (k := (dblExp d : Int) - 1023) (M := 2 ^ 52 + dblTrailing d) (W := 52)
    (by omega) (by omega)
  have hpos := (zpow_pos two_pos ((dblExp d : Int) - 1023)).trans_le hlow
  obtain ⟨habs, hsign⟩ := abs_signed hpos (dblSign d)
  rw [habs, hsign]
  generalize hk : (dblExp d : Int) - 1023 = e at *
  by_cases hsat : 6 ≤ e
  · refine ⟨maxPos, .saturated ?_, by simp [d2p, hzero, hmax, hk, hsat]⟩
    calc (64 : ℚ) = 2 ^ (6 : Int) := by norm_num
      _ ≤ 2 ^ e := zpow_le_zpow_right₀ (by norm_num) hsat
      _ ≤ _ := hlow
  by_cases hflush : e < -6
  · refine ⟨minPos, .flushed hpos ?_, by simp [d2p, hzero, hmax, hk, hsat, hflush]⟩
    calc _ ≤ (2 : ℚ) ^ (e + 1) := hhigh.le
      _ ≤ 2 ^ (-6 : Int) := zpow_le_zpow_right₀ (by norm_num) (by omega)
      _ = 1 / 64 := by norm_num
  by_cases hend : e = -6 ∧ dblTrailing d = 0
  · refine ⟨minPos, .flushed hpos ?_, by simp [d2p, hzero, hmax, hk, hend]⟩
    rw [hend.2, Nat.add_zero, scaledValue_two_pow, hend.1]
    norm_num
  refine ⟨_, .truncated (by omega) (by omega) hT ?_, ?_⟩
  · calc (1 / 64 : ℚ) = 2 ^ (-6 : Int) := by norm_num
      _ < _ := ?_
    obtain he | he : e = -6 ∨ -6 < e := by omega
    · rw [he, ← scaledValue_two_pow (-6) 52, scaledValue_lt_iff]
      exact Nat.lt_add_of_pos_right (Nat.pos_of_ne_zero fun hT0 => hend ⟨he, hT0⟩)
    · exact (zpow_lt_zpow_right₀ (by norm_num) he).trans_le hlow
  · rw [← ofNat_packScale (by omega) (by omega)]
    simp [d2p, hzero, hmax, hk, hsat, hflush, hend]

/-- D2P of a finite double, by the magnitude of its real value (R92). -/
theorem d2p_magnitude {d : Double} {x : ℚ} (h : doubleValue d = some x) :
    ∃ m, D2PMagnitude |x| m ∧ d2p d = withSign (decide (x < 0)) m := by
  by_cases hsub : dblExp d = 0
  · exact d2p_magnitude_of_subnormal hsub h
  · refine d2p_magnitude_of_normal hsub (fun hmax => ?_) h
    simp [doubleValue, hmax] at h

end Sys2Proof.Machine
end

section
/-! D2P against the staircase of R84 to R90 on the double's real value (41_codec.md). -/

namespace Sys2Proof.Machine

/-- The greedy bits of a fraction `q` of twice the probe are its leading binary digits (R90). -/
theorem fractionToBits_eq (length : Nat) : ∀ {q probe : ℚ} (bits : Nat), 0 < probe → 0 ≤ q → q < 1 →
    fractionToBits length (2 * probe * q) probe bits = bits * 2 ^ length + ⌊q * 2 ^ length⌋₊ := by
  induction length with
  | zero =>
    intro q probe bits _ _ h1
    have hfloor : ⌊q⌋₊ = 0 := Nat.floor_eq_zero.mpr h1
    simp [fractionToBits, hfloor]
  | succ length ih =>
    intro q probe bits hp h0 h1
    have hhalf : 0 < probe / 2 := half_pos hp
    unfold fractionToBits
    by_cases hq : 1 / 2 ≤ q
    · have htake : probe ≤ 2 * probe * q := by nlinarith
      have hrest : 2 * probe * q - probe = 2 * (probe / 2) * (2 * q - 1) := by ring
      have hshift : (2 * q - 1) * 2 ^ length = q * 2 ^ (length + 1) - (2 ^ length : Nat) := by push_cast; ring
      have hle : 2 ^ length ≤ ⌊q * 2 ^ (length + 1)⌋₊ := by
        refine Nat.le_floor ?_
        push_cast
        rw [pow_succ]
        nlinarith [pow_pos (two_pos (α := ℚ)) length]
      rw [if_pos htake, hrest, ih _ hhalf (by linarith) (by linarith), hshift, Nat.floor_sub_natCast,
        show (2 * bits + 1) * 2 ^ length = bits * 2 ^ (length + 1) + 2 ^ length by ring, Nat.add_assoc,
        Nat.add_sub_cancel' hle]
    · have hskip : ¬ probe ≤ 2 * probe * q := by nlinarith
      have hrest : 2 * probe * q = 2 * (probe / 2) * (2 * q) := by ring
      rw [if_neg hskip, hrest, ih _ hhalf (by linarith) (by linarith), pow_succ, pow_succ,
        show 2 * q * 2 ^ length = q * (2 ^ length * 2) by ring]
      ring

/-- Halving a magnitude of scale `n` ends after `n` rounds, at its significand (R89). -/
theorem halveLoop_eq {y : ℚ} (h1 : 1 ≤ y) (h2 : y < 2) :
    ∀ {rounds n : Nat} (rl : Nat), n ≤ rounds → halveLoop rounds (2 ^ n * y) rl = (y, rl + n)
  | 0, n, rl, hn => by
    obtain rfl := Nat.le_zero.mp hn
    simp [halveLoop]
  | rounds + 1, 0, rl, _ => by simp [halveLoop, h2]
  | rounds + 1, n + 1, rl, hn => by
    have hbig : 2 ≤ 2 ^ (n + 1) * y := by
      rw [pow_succ]
      nlinarith [one_le_pow₀ (n := n) (one_le_two (α := ℚ))]
    have hhalf : 2 ^ (n + 1) * y / 2 = 2 ^ n * y := by ring
    rw [halveLoop, if_pos hbig, hhalf, halveLoop_eq h1 h2 (rl + 1) (Nat.le_of_succ_le_succ hn), Nat.add_right_comm,
      Nat.add_assoc]

/-- Doubling a magnitude of scale `-n` ends after `n` rounds, at its significand (R89). -/
theorem doubleLoop_eq {y : ℚ} (h1 : 1 ≤ y) (h2 : y < 2) :
    ∀ {rounds n : Nat} (rl : Nat), n ≤ rounds → doubleLoop rounds (y / 2 ^ n) rl = (y, rl + n)
  | 0, n, rl, hn => by
    obtain rfl := Nat.le_zero.mp hn
    simp [doubleLoop]
  | rounds + 1, 0, rl, _ => by simp [doubleLoop, h1.not_gt]
  | rounds + 1, n + 1, rl, hn => by
    have hsmall : y / 2 ^ (n + 1) < 1 := by
      rw [div_lt_one (by positivity), pow_succ]
      nlinarith [one_le_pow₀ (n := n) (one_le_two (α := ℚ))]
    have hdouble : y / 2 ^ (n + 1) * 2 = y / 2 ^ n := by field_simp; ring
    rw [doubleLoop, if_pos hsmall, hdouble, doubleLoop_eq h1 h2 (rl + 1) (Nat.le_of_succ_le_succ hn),
      Nat.add_right_comm, Nat.add_assoc]

/-- The greedy fraction of a significand is its trailing significand, truncated (R90). -/
theorem fractionToBits_trailing {T length : Nat} (hT : T < 2 ^ 52) (hlength : length ≤ 52) :
    fractionToBits length ((2 ^ 52 + T : Nat) / 2 ^ 52 - 1) (1 / 2) 0 = T / 2 ^ (52 - length) := by
  have hq : ((2 ^ 52 + T : Nat) : ℚ) / 2 ^ 52 - 1 = 2 * (1 / 2) * (T / 2 ^ 52) := by push_cast; ring
  have hlt : (T : ℚ) / 2 ^ 52 < 1 := (div_lt_one (by positivity)).mpr (mod_cast hT)
  have hpow : (2 : ℚ) ^ 52 = 2 ^ (52 - length) * 2 ^ length := by rw [← pow_add, Nat.sub_add_cancel hlength]
  have hscale : (T : ℚ) / 2 ^ 52 * 2 ^ length = T / (2 ^ (52 - length) : Nat) := by
    push_cast
    rw [hpow, div_mul_eq_mul_div, mul_div_mul_right _ _ (by positivity)]
  rw [hq, fractionToBits_eq length 0 (by norm_num) (by positivity) hlt, hscale, Nat.floor_div_eq_div, Nat.zero_mul,
    Nat.zero_add]

/-- The ones case of the staircase, once its loop has ended without the early return (R89). -/
theorem staircaseGeneral_of_ones {x y : ℚ} {rl : Nat} (hones : 1 ≤ |x|) (hloop : halveLoop 7 |x| 1 = (y, rl))
    (hrl : rl ≤ 6) :
    staircaseGeneral x = withSign (decide (x < 0))
      (BitVec.ofNat 8 ((2 ^ rl - 1) * 2 * 2 ^ (6 - rl) + fractionToBits (6 - rl) (y - 1) (1 / 2) 0)) := by
  simp only [staircaseGeneral, withSign, decide_eq_true hones, hloop, if_true, if_neg (Nat.not_lt.mpr hrl),
    decide_eq_true_eq, Nat.add_zero, Nat.mul_comm 2]

/-- The zeros case of the staircase, once its loop has ended without the early return (R89). -/
theorem staircaseGeneral_of_zeros {x y : ℚ} {rl : Nat} (hzeros : |x| < 1) (hloop : doubleLoop 7 |x| 0 = (y, rl))
    (hrl : rl ≤ 6) :
    staircaseGeneral x = withSign (decide (x < 0))
      (BitVec.ofNat 8 (1 * 2 ^ (6 - rl) + fractionToBits (6 - rl) (y - 1) (1 / 2) 0)) := by
  simp only [staircaseGeneral, withSign, decide_eq_false hzeros.not_ge, hloop, Bool.false_eq_true, if_false,
    if_neg (Nat.not_lt.mpr hrl), decide_eq_true_eq, Nat.mul_zero, Nat.zero_add]

/-- The general case of the staircase packs the regime of the scale and the truncated fraction (R89). -/
theorem staircaseGeneral_eq {x : ℚ} {e : Int} {T : Nat} (h1 : -6 ≤ e) (h2 : e ≤ 5) (hT : T < 2 ^ 52)
    (hx : |x| = scaledValue e (2 ^ 52 + T) 52) :
    staircaseGeneral x = withSign (decide (x < 0)) (regimeByte e (T / 2 ^ (52 - (regimeEncode e).fl))) := by
  have hy1 : (1 : ℚ) ≤ (2 ^ 52 + T : Nat) / 2 ^ 52 := by
    rw [one_le_div (by positivity)]; exact_mod_cast Nat.le_add_right _ T
  have hy2 : ((2 ^ 52 + T : Nat) : ℚ) / 2 ^ 52 < 2 := by
    rw [div_lt_iff₀ (by positivity)]; exact_mod_cast (by omega : 2 ^ 52 + T < 2 * 2 ^ 52)
  obtain ⟨n, rfl | ⟨rfl, hn⟩⟩ : ∃ n : Nat, e = n ∨ e = -(n : Int) ∧ 1 ≤ n := by
    obtain ⟨n, h | h⟩ := e.eq_nat_or_neg <;> exact ⟨n, by omega⟩
  · have hxn : |x| = 2 ^ n * ((2 ^ 52 + T : Nat) / 2 ^ 52 : ℚ) := by rw [hx, scaledValue, zpow_natCast]
    have hones : 1 ≤ |x| := hxn ▸ one_le_mul_of_one_le_of_one_le (one_le_pow₀ one_le_two) hy1
    have hloop := hxn ▸ halveLoop_eq hy1 hy2 1 (by omega : n ≤ 7)
    rw [staircaseGeneral_of_ones hones hloop (by omega), fractionToBits_trailing hT (by omega), regimeByte,
      regimeEncode_natCast (by omega : n ≤ 5), show 6 - (1 + n) = 5 - n by omega, Nat.add_comm 1 n]
  · have hxn : |x| = ((2 ^ 52 + T : Nat) / 2 ^ 52 : ℚ) / 2 ^ n := by
      rw [hx, scaledValue, zpow_neg, zpow_natCast, inv_mul_eq_div]
    have hzeros : |x| < 1 := by
      rw [hxn, div_lt_one (by positivity)]
      exact hy2.trans_le (le_self_pow₀ one_le_two (by omega))
    have hloop := hxn ▸ doubleLoop_eq hy1 hy2 0 (by omega : n ≤ 7)
    rw [staircaseGeneral_of_zeros hzeros hloop (by omega), fractionToBits_trailing hT (by omega), regimeByte,
      regimeEncode_neg_natCast hn (by omega : n ≤ 6), Nat.zero_add]

/-- The steps of the staircase before the general case depend on the magnitude, and the sign comes last
(R84, R87, R88). -/
theorem staircase_eq (x : ℚ) :
    staircase x = if x = 0 then zero8 else if 64 ≤ |x| then withSign (decide (x < 0)) maxPos
      else if |x| ≤ 1 / 64 then withSign (decide (x < 0)) minPos else staircaseGeneral x := by
  unfold staircase
  by_cases hzero : x = 0
  · rw [if_pos hzero, if_pos hzero]; rfl
  rw [if_neg hzero, if_neg hzero]
  obtain hneg | hpos := lt_or_gt_of_ne hzero
  · have h1 : ¬ 64 ≤ x := by linarith
    have h2 : (64 ≤ -x) ↔ x ≤ -64 := le_neg
    have h3 : (-x ≤ 1 / 64) ↔ -(1 / 64) ≤ x := neg_le
    simp only [abs_of_neg hneg, h1, h2, h3, hneg, hneg.not_gt, false_and, and_true, if_false]
    rfl
  · have h1 : ¬ x ≤ -64 := by linarith
    simp only [abs_of_pos hpos, h1, hpos, hpos.not_gt, true_and, and_false, if_false]
    rfl

/-- The staircase makes the same of a magnitude as D2P (R84 to R92). -/
theorem staircase_of_magnitude {x : ℚ} {m : Byte} (hm : D2PMagnitude |x| m) :
    staircase x = withSign (decide (x < 0)) m := by
  rw [staircase_eq]
  generalize hy : |x| = y at hm
  cases hm with
  | zero => rw [abs_eq_zero] at hy; simp [hy, withSign]
  | saturated h64 =>
    have hx : x ≠ 0 := fun h => by rw [h, abs_zero] at hy; linarith
    rw [if_neg hx, if_pos h64]
  | flushed hpos h =>
    have hx : x ≠ 0 := abs_pos.mp (hy ▸ hpos)
    rw [if_neg hx, if_neg (by linarith), if_pos h]
  | truncated h1 h2 hT hlow =>
    have hx : x ≠ 0 := abs_pos.mp (hy ▸ (by norm_num : (0 : ℚ) < 1 / 64).trans hlow)
    rw [if_neg hx, if_neg (truncated_lt_64 h2 hT).not_ge, if_neg hlow.not_ge, staircaseGeneral_eq h1 h2 hT hy]

/-- Settles O25: D2P and the staircase make the same of the magnitude and apply the same sign. -/
theorem d2PRefinesTheStaircase : Obligations.D2PRefinesTheStaircase := by
  intro s d x hx
  obtain ⟨m, hm, hd⟩ := d2p_magnitude hx
  rw [exec_d2p, hd, staircase_of_magnitude hm]

/-- Settles O24: an infinity or a NaN has exponent field 2047; for any other double D2P is the staircase, whose first
steps are these clauses. -/
theorem d2PSaturatesAndFlushes : Obligations.D2PSaturatesAndFlushes := by
  refine fun s d => ⟨fun hnone => ?_, fun x hx => ?_⟩
  · have hexp : dblExp d = 2047 := by
      by_contra hne
      by_cases hzero : dblExp d = 0 <;> simp [doubleValue, hne, hzero] at hnone
    simp [exec_d2p, d2p, hexp, nar]
  · rw [d2PRefinesTheStaircase s d x hx]
    unfold staircase
    refine ⟨fun h => ?_, fun h => ?_, fun h => ?_, fun h h' => ?_, fun h h' => ?_⟩
    · rw [if_pos h]
    · rw [if_neg (by linarith), if_pos h]
    · rw [if_neg (by linarith), if_neg (by linarith), if_pos h]
    · rw [if_neg (by linarith), if_neg (by linarith), if_neg (by linarith), if_pos ⟨h, h'⟩]
    · rw [if_neg (by linarith), if_neg (by linarith), if_neg (by linarith), if_neg (fun h0 => by linarith [h0.1]),
        if_pos ⟨h, h'⟩]

/-- Settles O26: of the ranges of `d2p_magnitude` the bounds leave the last one, where the truncated fraction and
the next one bracket the trailing significand. -/
theorem d2PTruncatesTowardZero : Obligations.D2PTruncatesTowardZero := by
  intro s d x hx hlow hhigh
  obtain ⟨m, hm, hd⟩ := d2p_magnitude hx
  generalize |x| = y at *
  cases hm with
  | zero => norm_num at hlow
  | saturated h64 => exact absurd hhigh h64.not_gt
  | flushed _ h => exact absurd hlow h.not_gt
  | @truncated e T h1 h2 hT _ =>
    obtain ⟨hfl, hlen, -, hmax⟩ := regimeEncode_middle e h1 h2
    have hfl52 : (regimeEncode e).fl ≤ 52 := by omega
    have hf := truncated_lt hT hfl52
    obtain ⟨htoNat, hpos, -⟩ := regimeByte_toNat h1 h2 hf.le
    obtain ⟨hle, hlt⟩ := scaledValue_truncate e T hfl52
    rw [Nat.add_mul] at hmax
    refine ⟨_, _, _, hpos, by omega, value_regimeByte h1 h2 hf.le, ?_, hle, hlt, ?_⟩
    · rw [← regimeByte_succ]
      exact value_regimeByte h1 h2 hf
    · rw [exec_d2p, hd]
      simp only [withSign, decide_eq_true_eq]

/-- Sign and magnitude byte determine an encoding (R50). -/
theorem withSign_magnitude (v : Byte) : withSign (signBit v) (magnitude v) = v := by
  unfold withSign magnitude
  split
  · exact neg8_neg8 v
  · rfl

/-- The two ends of the regimes have one byte each, and the others are made of regime and fraction (R54). -/
theorem magnitude_cases {v : Byte} (h : isFiniteNonzero v = true) :
    ((decodeFields v).k = 6 ∧ magnitude v = maxPos) ∨
    ((decodeFields v).k = -6 ∧ (decodeFields v).fraction = 0 ∧ magnitude v = minPos) ∨
    (-6 < (decodeFields v).k ∧ (decodeFields v).k ≤ 5 ∧
      magnitude v = regimeByte (decodeFields v).k (decodeFields v).fraction) := by
  obtain ⟨hk1, hk2, -⟩ := decodeFields_range h
  obtain ⟨hfl, hmag, hfrac⟩ := regimeEncode_decodeFields h
  rw [← hfl] at hmag hfrac
  have hbyte : magnitude v = regimeByte (decodeFields v).k (decodeFields v).fraction := by
    rw [regimeByte, hmag, BitVec.ofNat_toNat, BitVec.setWidth_eq]
  obtain hk | hk | hk : (decodeFields v).k = 6 ∨ (decodeFields v).k = -6 ∨
    (-6 < (decodeFields v).k ∧ (decodeFields v).k ≤ 5) := by omega
  · have hzero : (decodeFields v).fraction = 0 := by rw [hk] at hfrac; exact Nat.lt_one_iff.mp hfrac
    exact .inl ⟨hk, by rw [hbyte, hk, hzero]; rfl⟩
  · have hzero : (decodeFields v).fraction = 0 := by rw [hk] at hfrac; exact Nat.lt_one_iff.mp hfrac
    exact .inr (.inl ⟨hk, hzero, by rw [hbyte, hk, hzero]; rfl⟩)
  · exact .inr (.inr ⟨hk.1, hk.2, hbyte⟩)

/-- D2P undoes P2D on the fields of a finite non-zero byte (R83, R92). -/
theorem d2p_p2d_of_finite (P : Params) {v : Byte} (h : isFiniteNonzero v = true) : d2p (p2d P v) = v := by
  obtain ⟨hk1, hk2, -⟩ := decodeFields_range h
  obtain ⟨hsign, hexp, htrailing⟩ := p2d_fields P h
  have hS : dblSign (p2d P v) = signBit v := by rw [hsign, decodeFields_of_finite h]
  have hzero : dblExp (p2d P v) ≠ 0 := by omega
  have hmax : dblExp (p2d P v) ≠ 2047 := by omega
  have hbyte : d2p (p2d P v) = withSign (signBit v) (magnitude v) := by
    obtain ⟨hk, hmag⟩ | ⟨hk, hfrac, hmag⟩ | ⟨hk, hk5, hmag⟩ := magnitude_cases h
    · simp [d2p, hzero, hmax, hexp, hk, hS, hmag]
    · simp [d2p, hzero, hmax, hexp, hk, hS, hmag, htrailing, hfrac]
    · have hpack : BitVec.ofNat 8 (packScale (decodeFields v).k (dblTrailing (p2d P v))) = magnitude v := by
        rw [ofNat_packScale (by omega) hk5, htrailing, (regimeEncode_decodeFields h).1,
          Nat.mul_div_cancel _ (by positivity), hmag]
      have hsat : ¬ 6 ≤ (decodeFields v).k := by omega
      have hflush : ¬ (decodeFields v).k < -6 := by omega
      have hend : (decodeFields v).k ≠ -6 := by omega
      simp [d2p, hzero, hmax, hexp, hS, hsat, hflush, hend, hpack]
  rw [hbyte, withSign_magnitude]

/-- Settles O27: zero and the sentinel come back from their own doubles, and every other byte by its fields. -/
theorem positsSurviveTheDoubleRoundTrip : Obligations.PositsSurviveTheDoubleRoundTrip := by
  intro s v
  refine ⟨p2d s.params v, exec_p2d s v, ?_⟩
  have hbyte : d2p (p2d s.params v) = v := by
    obtain rfl | rfl | hfin := byte_cases v
    · rw [p2d_zero]; decide
    · rw [p2d_sentinel, d2p, dblExp_narDouble, if_neg (by simp), if_pos rfl]; rfl
    · exact d2p_p2d_of_finite s.params hfin
  rw [exec_d2p, hbyte]

end Sys2Proof.Machine
end

section
/-! The back end: saturation, flush, and rounding to the nearest posit (43_arith_common.md R112 to R122). -/

namespace Sys2Proof.Machine

/-- A scale of 6 or more saturates (R114). -/
theorem packMagnitude_of_six_le {k : Int} (h : 6 ≤ k) (M W : Nat) (sticky : Bool) :
    packMagnitude k M W sticky = 0x7F := by
  simp only [packMagnitude, if_pos h]

/-- A scale of -7 or less underflows (R115). -/
theorem packMagnitude_of_le_neg_seven {k : Int} (h : k ≤ -7) (M W : Nat) (sticky : Bool) :
    packMagnitude k M W sticky = 0 := by
  simp only [packMagnitude, if_neg (by omega : ¬ 6 ≤ k), if_pos h]

/-- Saturation, with the sign (R114, R119). -/
theorem roundPack_of_six_le {u : Unrounded} (h : 6 ≤ u.k) : roundPack u = withSign u.sign maxPos := by
  rw [roundPack, packMagnitude_of_six_le h]
  rfl

/-- Flush, with the sign (R115, R118, R119). -/
theorem roundPack_of_le_neg_seven {u : Unrounded} (h : u.k ≤ -7) : roundPack u = withSign u.sign minPos := by
  rw [roundPack, packMagnitude_of_le_neg_seven h]
  rfl

/-- Settles O29: saturation and flush look at the scale alone, and the sign comes last. -/
theorem backEndSaturatesAndFlushes : Obligations.BackEndSaturatesAndFlushes := by
  intro u
  refine ⟨fun h => ?_, fun h => ?_⟩
  · rw [roundPack_of_six_le h]; rfl
  · rw [roundPack_of_le_neg_seven h]; rfl

/-- Whether the `sh` discarded bits of a fraction round it up: more than half, or half with more below it or with an
odd byte before it (R117). -/
def roundsUp (base F sh : Nat) (sticky : Bool) : Bool :=
  decide (2 ^ (sh - 1) < F % 2 ^ sh ∨
    (F % 2 ^ sh = 2 ^ (sh - 1) ∧ (sticky = true ∨ (base + F / 2 ^ sh) % 2 = 1)))

/-- The zero correction has nothing to correct where there is a regime pattern (R118). -/
theorem ofNat_correctZero {k : Int} (h1 : -6 ≤ k) (h2 : k ≤ 5) {mag f : Nat}
    (h : mag = (regimeEncode k).pat * 2 ^ (regimeEncode k).fl + f) :
    BitVec.ofNat 8 (correctZero mag) = regimeByte k f := by
  obtain ⟨-, -, hpat, -⟩ := regimeEncode_middle k h1 h2
  have hpos := Nat.mul_le_mul hpat (Nat.one_le_two_pow (n := (regimeEncode k).fl))
  rw [correctZero, if_neg (by omega), h, regimeByte]

section
variable {u : Unrounded} (h1 : -6 ≤ u.k) (h2 : u.k ≤ 5) {F : Nat} (hsig : u.sig = 2 ^ u.width + F)
include h1 h2 hsig

/-- Fraction bits the regime has no place for are rounded (R116, R117). -/
theorem roundPack_narrow (hW : (regimeEncode u.k).fl < u.width) :
    roundPack { u with sign := false } = regimeByte u.k (F / 2 ^ (u.width - (regimeEncode u.k).fl) +
      (roundsUp ((regimeEncode u.k).pat * 2 ^ (regimeEncode u.k).fl) F (u.width - (regimeEncode u.k).fl)
        u.sticky).toNat) := by
  have hsh : 0 < u.width - (regimeEncode u.k).fl := Nat.sub_pos_of_lt hW
  refine ofNat_correctZero h1 h2 ?_
  simp only [packMagnitude, if_neg (by omega : ¬ 6 ≤ u.k), if_neg (by omega : ¬ u.k ≤ -7), if_pos hW.le,
    narrowRound_eq, Nat.shiftLeft_eq, Nat.one_mul, hsh, true_and, Nat.add_assoc, hsig, Nat.add_sub_cancel_left,
    roundsUp, Bool.toNat, Bool.cond_decide]

/-- A fraction the regime has room for is kept whole (R116, R120). -/
theorem roundPack_widen (hW : u.width ≤ (regimeEncode u.k).fl) :
    roundPack { u with sign := false } = regimeByte u.k (F * 2 ^ ((regimeEncode u.k).fl - u.width)) := by
  refine ofNat_correctZero h1 h2 ?_
  simp only [packMagnitude, if_neg (by omega : ¬ 6 ≤ u.k), if_neg (by omega : ¬ u.k ≤ -7), Nat.shiftLeft_eq,
    Nat.one_mul, hsig, Nat.add_sub_cancel_left]
  split
  · rename_i hle
    rw [hW.antisymm hle]
    simp [narrowRound_eq]
  · rfl

end

/-- The significand of a normalised result is the hidden bit above a fraction of its width (R112). -/
theorem exists_fraction {u : Unrounded} (h : Normalised u) :
    ∃ F, u.sig = 2 ^ u.width + F ∧ F < 2 ^ u.width := by
  obtain ⟨hlow, hhigh⟩ := h
  rw [pow_succ] at hhigh
  exact ⟨u.sig - 2 ^ u.width, by omega, by omega⟩

/-- The byte before the sign is a magnitude byte (R119). -/
theorem roundPack_positive_range {u : Unrounded} (h : Normalised u) :
    1 ≤ (roundPack { u with sign := false }).toNat ∧ (roundPack { u with sign := false }).toNat ≤ 127 := by
  obtain hhigh | hlow | ⟨h1, h2⟩ : 6 ≤ u.k ∨ u.k ≤ -7 ∨ (-6 ≤ u.k ∧ u.k ≤ 5) := by omega
  · rw [roundPack_of_six_le (u := { u with sign := false }) hhigh]
    exact (by decide : 1 ≤ maxPos.toNat ∧ maxPos.toNat ≤ 127)
  · rw [roundPack_of_le_neg_seven (u := { u with sign := false }) hlow]
    exact (by decide : 1 ≤ minPos.toNat ∧ minPos.toNat ≤ 127)
  obtain ⟨F, hsig, hF⟩ := exists_fraction h
  obtain hW | hW := Nat.lt_or_ge (regimeEncode u.k).fl u.width
  · rw [roundPack_narrow h1 h2 hsig hW]
    have hf := truncated_lt hF hW.le
    exact (regimeByte_toNat h1 h2 ((Nat.add_le_add_left (Bool.toNat_le _) _).trans hf)).2
  · rw [roundPack_widen h1 h2 hsig hW]
    exact (regimeByte_toNat h1 h2 (widened_lt hF hW).le).2

/-- A sign applied to a magnitude byte gives neither zero nor the sentinel (R119). -/
theorem withSign_ne {m : Byte} (hpos : 1 ≤ m.toNat) (hle : m.toNat ≤ 127) (s : Bool) :
    withSign s m ≠ 0x00 ∧ withSign s m ≠ 0x80 := by
  have hzero : m ≠ 0x00 := by rintro rfl; exact absurd hpos (by decide)
  have hnar : m ≠ 0x80 := by rintro rfl; exact absurd hle (by decide)
  cases s
  · exact ⟨hzero, hnar⟩
  · exact ⟨by rwa [withSign, if_pos rfl, Ne, neg8_eq_iff, neg8_zero],
      by rwa [withSign, if_pos rfl, Ne, neg8_eq_iff, neg8_sentinel]⟩

/-- Settles O30: the sign is applied to the byte of the positive result, which is a magnitude byte. -/
theorem backEndAppliesTheSignLast : Obligations.BackEndAppliesTheSignLast := by
  intro u h
  obtain ⟨hpos, hle⟩ := roundPack_positive_range h
  obtain ⟨hzero, hnar⟩ := withSign_ne hpos hle u.sign
  exact ⟨roundPack { u with sign := false }, hpos, hle, fun sign => rfl, hzero, hnar⟩

end Sys2Proof.Machine
end

section
/-! The back end returns the nearest posit to whatever an intermediate result stands for
(43_arith_common.md R112, R122). -/

namespace Sys2Proof.Machine

/-- The magnitudes an intermediate result stands for (R112): its own, without a sticky flag; with one, those strictly
above it that the zeros at the end of the significand, or the place below the last retained bit, leave room for. -/
def StandsFor (u : Unrounded) (x : ℚ) : Prop :=
  if u.sticky then
    scaledValue u.k u.sig u.width < x ∧
      ((∃ j, 2 ^ j ∣ u.sig ∧ (regimeEncode u.k).fl + j < u.width ∧ x < scaledValue u.k (u.sig + 2 ^ j) u.width) ∨
        (u.width ≤ (regimeEncode u.k).fl ∧
          x < scaledValue u.k (u.sig * 2 ^ ((regimeEncode u.k).fl + 1 - u.width) + 1) ((regimeEncode u.k).fl + 1)))
  else x = scaledValue u.k u.sig u.width

/-- Without a sticky flag a result stands for its own magnitude (R112). -/
theorem standsFor_self {u : Unrounded} (h : u.sticky = false) : StandsFor u (scaledValue u.k u.sig u.width) := by
  rw [StandsFor, if_neg (by rw [h]; exact Bool.false_ne_true)]

/-- A multiple of `d` below another one leaves room for `d` between them. -/
theorem add_le_of_dvd_of_lt {a b d : Nat} (ha : d ∣ a) (hb : d ∣ b) (h : a < b) : a + d ≤ b := by
  have := Nat.le_of_dvd (Nat.sub_pos_of_lt h) (Nat.dvd_sub hb ha)
  omega

/-- What a normalised result stands for lies between the same powers of two as the result (R112). -/
theorem standsFor_range {u : Unrounded} (h : Normalised u) {x : ℚ} (hx : StandsFor u x) :
    (2 : ℚ) ^ u.k ≤ x ∧ x < (2 : ℚ) ^ (u.k + 1) := by
  obtain ⟨hlow, hhigh⟩ := scaledValue_range h.1 h.2 (k := u.k)
  unfold StandsFor at hx
  split at hx
  · obtain ⟨habove, ⟨j, hj, hfit, hbelow⟩ | ⟨hfit, hbelow⟩⟩ := hx
    · refine ⟨hlow.trans habove.le, hbelow.trans_le ?_⟩
      rw [← scaledValue_two_pow_succ u.k u.width, scaledValue_le_iff]
      exact add_le_of_dvd_of_lt hj (Nat.pow_dvd_pow 2 (by omega)) h.2
    · refine ⟨hlow.trans habove.le, hbelow.trans_le ?_⟩
      rw [← scaledValue_two_pow_succ u.k ((regimeEncode u.k).fl + 1), scaledValue_le_iff, Nat.succ_le_iff]
      calc u.sig * 2 ^ ((regimeEncode u.k).fl + 1 - u.width)
          < 2 ^ (u.width + 1) * 2 ^ ((regimeEncode u.k).fl + 1 - u.width) :=
            Nat.mul_lt_mul_of_pos_right h.2 (by positivity)
        _ = 2 ^ ((regimeEncode u.k).fl + 1 + 1) := by rw [← pow_add]; congr 1; omega
  · exact hx ▸ ⟨hlow, hhigh⟩

/-- The middle between two significands stands for the middle between their magnitudes. -/
theorem scaledValue_middle (k : Int) (M W n : Nat) :
    (scaledValue k M W + scaledValue k (M + 2 ^ (n + 1)) W) / 2 = scaledValue k (M + 2 ^ n) W := by
  simp only [scaledValue]
  push_cast
  ring

/-- Of two bytes around a magnitude the second is nearer above the middle, and taken on it if the first is odd
(R122). -/
theorem nearerOf_eq {x l h : ℚ} {lo hi : Byte} (hhigh : x < h) {up : Bool}
    (hup : up = true ↔ (l + h) / 2 < x ∨ (x = (l + h) / 2 ∧ lo.toNat % 2 = 1)) :
    nearerOf x lo hi l h = if up then hi else lo := by
  unfold nearerOf
  rw [if_neg (ne_of_lt hhigh)]
  by_cases hl : x = l
  · have hdown : up ≠ true := by rw [Ne, hup]; rintro (h | h) <;> linarith
    rw [if_pos hl, if_neg hdown]
  rw [if_neg hl]
  obtain hbelow | hmiddle | habove := lt_trichotomy x ((l + h) / 2)
  · have hdown : up ≠ true := by rw [Ne, hup]; rintro (h | h) <;> linarith
    rw [if_pos hbelow, if_neg hdown]
  · rw [if_neg hmiddle.not_lt, if_neg hmiddle.not_gt]
    by_cases hodd : lo.toNat % 2 = 1
    · rw [if_neg (by omega), if_pos (hup.mpr (.inr ⟨hmiddle, hodd⟩))]
    · have hdown : up ≠ true := by rw [Ne, hup]; rintro (h | h); exacts [h.ne' hmiddle, hodd h.2]
      rw [if_pos (by omega), if_neg hdown]
  · rw [if_neg habove.not_gt, if_pos habove, if_pos (hup.mpr (.inl habove))]

/-- A magnitude between the values of two neighbouring bytes of a regime, `P` and `P + 2^(n + 1)` at width `W`, goes to
the second of them if it is above the middle, or on it with the first byte odd (R122). -/
theorem nearestMagnitude_regimeByte {k : Int} (h1 : -6 ≤ k) (h2 : k ≤ 5) {f n P W : Nat}
    (hf : f < 2 ^ (regimeEncode k).fl) (hP : P = (2 ^ (regimeEncode k).fl + f) * 2 ^ (n + 1))
    (hW : W = (regimeEncode k).fl + (n + 1)) {x : ℚ} (hlow : scaledValue k P W ≤ x)
    (hhigh : x < scaledValue k (P + 2 ^ (n + 1)) W) {up : Bool}
    (hup : up = true ↔ scaledValue k (P + 2 ^ n) W < x ∨
      (x = scaledValue k (P + 2 ^ n) W ∧ (regimeByte k f).toNat % 2 = 1)) :
    NearestMagnitude x (regimeByte k (f + up.toNat)) := by
  have hlo : value (regimeByte k f) = some (scaledValue k P W) := by
    rw [value_regimeByte h1 h2 hf.le, hP, hW, scaledValue_mul_two_pow]
  have hhi : value (regimeByte k (f + 1)) = some (scaledValue k (P + 2 ^ (n + 1)) W) := by
    rw [value_regimeByte h1 h2 hf, hP, hW, ← Nat.succ_mul, scaledValue_mul_two_pow]; rfl
  have hmin : 1 / 64 ≤ scaledValue k P W := by
    calc (1 / 64 : ℚ) = 2 ^ (-6 : Int) := by norm_num
      _ ≤ 2 ^ k := zpow_le_zpow_right₀ one_le_two h1
      _ ≤ scaledValue k (2 ^ (regimeEncode k).fl + f) (regimeEncode k).fl :=
        (scaledValue_range (Nat.le_add_right _ _) (by rw [pow_succ]; omega)).1
      _ = scaledValue k P W := by rw [hP, hW, scaledValue_mul_two_pow]
  have hmax : scaledValue k (P + 2 ^ (n + 1)) W ≤ 64 := by
    have hrange : (sixtyFourths (regimeByte k (f + 1)) : ℚ) ≤ 4096 := mod_cast (sixtyFourths_range _).2
    rw [eq_sixtyFourths_of_value hhi]
    linarith
  rw [← scaledValue_middle] at hup
  unfold NearestMagnitude
  rw [if_neg (hhigh.trans_le hmax).not_ge]
  split
  · have hl : scaledValue k P W = 1 / 64 := by linarith
    have hdown : up = false := by
      rw [← Bool.not_eq_true, hup]
      rintro (h | h) <;> linarith
    rw [hdown]
    exact value_injective (hlo.trans (congrArg some hl)) value_minPos
  · obtain ⟨hnat, hpos, -⟩ := regimeByte_toNat h1 h2 hf.le
    obtain ⟨hnat', -, hle⟩ := regimeByte_toNat h1 h2 (f := f + 1) hf
    refine ⟨regimeByte k f, regimeByte k (f + 1), _, _, hpos, by omega, hle, hlo, hhi, hlow, hhigh.le, ?_⟩
    rw [nearerOf_eq hhigh hup]
    cases up <;> rfl

section
variable {k : Int} (h1 : -6 ≤ k) (h2 : k ≤ 5) {f n P W r : Nat} (hf : f < 2 ^ (regimeEncode k).fl)
  (hP : P = (2 ^ (regimeEncode k).fl + f) * 2 ^ (n + 1)) (hW : W = (regimeEncode k).fl + (n + 1))
  (hr : r < 2 ^ (n + 1))
include h1 h2 hf hP hW hr

/-- An exact magnitude whose discarded bits are `r` is rounded by them (R117, R122). -/
theorem nearestMagnitude_of_exact {up : Bool}
    (hup : up = true ↔ 2 ^ n < r ∨ (r = 2 ^ n ∧ (regimeByte k f).toNat % 2 = 1)) :
    NearestMagnitude (scaledValue k (P + r) W) (regimeByte k (f + up.toNat)) := by
  refine nearestMagnitude_regimeByte h1 h2 hf hP hW ?_ ?_ ?_
  · exact (scaledValue_le_iff k).mpr (Nat.le_add_right P r)
  · exact (scaledValue_lt_iff k).mpr (Nat.add_lt_add_left hr P)
  · rw [hup, scaledValue_lt_iff, scaledValue_inj, Nat.add_lt_add_iff_left, Nat.add_right_inj]

/-- A magnitude above the discarded bits `r`, by less than the zeros at their end leave room for, is rounded up from
half of the last retained bit on (R117, R122). -/
theorem nearestMagnitude_of_sticky {j : Nat} (hjn : j ≤ n) (hj : 2 ^ j ∣ P + r) {x : ℚ}
    (habove : scaledValue k (P + r) W < x) (hbelow : x < scaledValue k (P + r + 2 ^ j) W) {up : Bool}
    (hup : up = true ↔ 2 ^ n ≤ r) : NearestMagnitude x (regimeByte k (f + up.toNat)) := by
  have hjn : 2 ^ j ∣ 2 ^ n := Nat.pow_dvd_pow 2 hjn
  have hnsucc : 2 ^ n ∣ 2 ^ (n + 1) := Nat.pow_dvd_pow 2 n.le_succ
  have hroom {d : Nat} (hd : 2 ^ n ∣ d) (hrd : r < d) : x < scaledValue k (P + d) W := by
    have hjP : 2 ^ j ∣ P + d := hP ▸ dvd_add ((hjn.trans hnsucc).mul_left _) (hjn.trans hd)
    exact hbelow.trans_le ((scaledValue_le_iff k).mpr (add_le_of_dvd_of_lt hj hjP (Nat.add_lt_add_left hrd P)))
  refine nearestMagnitude_regimeByte h1 h2 hf hP hW ?_ (hroom hnsucc hr) ?_
  · exact ((scaledValue_le_iff k).mpr (Nat.le_add_right P r)).trans habove.le
  rw [hup]
  obtain hdown | hhalf := Nat.lt_or_ge r (2 ^ n)
  · have hx := hroom dvd_rfl hdown
    simp only [hdown.not_ge, hx.not_gt, hx.ne, false_and, or_self]
  · have hx := ((scaledValue_le_iff k).mpr (Nat.add_le_add_left hhalf P)).trans_lt habove
    simp only [hhalf, hx, true_or]

end

section
variable {u : Unrounded} (h : Normalised u) (h1 : -6 ≤ u.k) (h2 : u.k ≤ 5) {x : ℚ} (hx : StandsFor u x)
include h h1 h2 hx

/-- Narrowing rounds to the nearest, whatever the sticky flag stands for (R116, R117, R122). -/
theorem nearestMagnitude_narrow (hW : (regimeEncode u.k).fl < u.width) :
    NearestMagnitude x (roundPack { u with sign := false }) := by
  obtain ⟨F, hsig, hF⟩ := exists_fraction h
  obtain ⟨n, hn⟩ : ∃ n, u.width - (regimeEncode u.k).fl = n + 1 := Nat.exists_eq_succ_of_ne_zero (by omega)
  have hwidth : u.width = (regimeEncode u.k).fl + (n + 1) := by omega
  have hf := truncated_lt hF hW.le
  obtain ⟨hbyte, -, -⟩ := regimeByte_toNat h1 h2 hf.le
  rw [roundPack_narrow h1 h2 hsig hW]
  rw [hn] at hf hbyte ⊢
  have hr : F % 2 ^ (n + 1) < 2 ^ (n + 1) := Nat.mod_lt _ (by positivity)
  have hsplit : u.sig = (2 ^ (regimeEncode u.k).fl + F / 2 ^ (n + 1)) * 2 ^ (n + 1) + F % 2 ^ (n + 1) := by
    rw [hsig, hwidth, Nat.add_mul, ← pow_add, Nat.add_assoc, Nat.div_add_mod']
  have hup : roundsUp ((regimeEncode u.k).pat * 2 ^ (regimeEncode u.k).fl) F (n + 1) u.sticky = true ↔
      2 ^ n < F % 2 ^ (n + 1) ∨ (F % 2 ^ (n + 1) = 2 ^ n ∧
        (u.sticky = true ∨ (regimeByte u.k (F / 2 ^ (n + 1))).toNat % 2 = 1)) := by
    rw [hbyte]
    exact decide_eq_true_iff
  unfold StandsFor at hx
  rw [hsplit] at hx
  split at hx
  case isFalse hsticky =>
    subst hx
    refine nearestMagnitude_of_exact h1 h2 hf rfl hwidth hr ?_
    simpa only [hsticky, Bool.false_eq_true, false_or] using hup
  case isTrue hsticky =>
    obtain ⟨habove, ⟨j, hj, hfit, hbelow⟩ | ⟨hfit, -⟩⟩ := hx
    · refine nearestMagnitude_of_sticky h1 h2 hf rfl hwidth hr (by omega) hj habove hbelow ?_
      rw [hup, hsticky, le_iff_lt_or_eq, eq_comm (a := 2 ^ n)]
      simp only [true_or, and_true]
    · exact absurd hW hfit.not_gt

/-- Widening is exact, and what a sticky flag stands for stays below the middle (R116, R120, R122). -/
theorem nearestMagnitude_widen (hW : u.width ≤ (regimeEncode u.k).fl) :
    NearestMagnitude x (roundPack { u with sign := false }) := by
  obtain ⟨F, hsig, hF⟩ := exists_fraction h
  have hwidth : u.width + ((regimeEncode u.k).fl + 1 - u.width) = (regimeEncode u.k).fl + 1 := by omega
  have hP : u.sig * 2 ^ ((regimeEncode u.k).fl + 1 - u.width) =
      (2 ^ (regimeEncode u.k).fl + F * 2 ^ ((regimeEncode u.k).fl - u.width)) * 2 ^ (0 + 1) := by
    obtain ⟨n, hn⟩ := Nat.exists_eq_add_of_le hW
    rw [hsig, hn, Nat.add_sub_cancel_left, show u.width + n + 1 - u.width = n + 1 by omega]
    ring
  have hlow := scaledValue_mul_two_pow u.k u.sig u.width ((regimeEncode u.k).fl + 1 - u.width)
  rw [hwidth] at hlow
  have hbounds : scaledValue u.k u.sig u.width ≤ x ∧
      x < scaledValue u.k (u.sig * 2 ^ ((regimeEncode u.k).fl + 1 - u.width) + 2 ^ 0) ((regimeEncode u.k).fl + 1) := by
    unfold StandsFor at hx
    split at hx
    · obtain ⟨habove, ⟨j, -, hfit, -⟩ | ⟨-, hbelow⟩⟩ := hx
      · omega
      · exact ⟨habove.le, hbelow⟩
    · rw [hx, ← hlow, scaledValue_lt_iff]
      exact ⟨le_rfl, Nat.lt_succ_self _⟩
  obtain ⟨habove, hbelow⟩ := hbounds
  rw [roundPack_widen h1 h2 hsig hW]
  refine nearestMagnitude_regimeByte (up := false) h1 h2 (widened_lt hF hW) hP rfl (hlow.trans_le habove)
    (hbelow.trans ((scaledValue_lt_iff _).mpr (by omega))) ?_
  simp only [hbelow.not_gt, hbelow.ne, false_and, or_self, Bool.false_eq_true]

end

/-- The back end returns the nearest magnitude byte to whatever a normalised result stands for (R122). -/
theorem nearestMagnitude_roundPack {u : Unrounded} (h : Normalised u) {x : ℚ} (hx : StandsFor u x) :
    NearestMagnitude x (roundPack { u with sign := false }) := by
  obtain ⟨hlow, hhigh⟩ := standsFor_range h hx
  obtain hsat | hflush | ⟨h1, h2⟩ : 6 ≤ u.k ∨ u.k ≤ -7 ∨ (-6 ≤ u.k ∧ u.k ≤ 5) := by omega
  · have h64 : 64 ≤ x := by
      calc (64 : ℚ) = 2 ^ (6 : Int) := by norm_num
        _ ≤ 2 ^ u.k := zpow_le_zpow_right₀ one_le_two hsat
        _ ≤ x := hlow
    rw [roundPack_of_six_le (u := { u with sign := false }) hsat, NearestMagnitude, if_pos h64]
    rfl
  · have hsmall : x ≤ 1 / 64 := by
      calc x ≤ 2 ^ (u.k + 1) := hhigh.le
        _ ≤ 2 ^ (-6 : Int) := zpow_le_zpow_right₀ one_le_two (by omega)
        _ = 1 / 64 := by norm_num
    rw [roundPack_of_le_neg_seven (u := { u with sign := false }) hflush, NearestMagnitude, if_neg (by linarith),
      if_pos hsmall]
    rfl
  · obtain hW | hW := Nat.lt_or_ge (regimeEncode u.k).fl u.width
    · exact nearestMagnitude_narrow h h1 h2 hx hW
    · exact nearestMagnitude_widen h h1 h2 hx hW

/-- Settles O31: in each clause x is a magnitude the result stands for. -/
theorem backEndReturnsTheNearest : Obligations.BackEndReturnsTheNearest := by
  refine fun u h => ⟨fun hsticky => nearestMagnitude_roundPack h (standsFor_self hsticky),
    fun hsticky j x hj hfit hlow hhigh => nearestMagnitude_roundPack h ?_,
    fun hsticky x hfit hlow hhigh => nearestMagnitude_roundPack h ?_⟩
  · rw [StandsFor, if_pos hsticky]
    exact ⟨hlow, .inl ⟨j, hj, hfit, hhigh⟩⟩
  · rw [StandsFor, if_pos hsticky]
    exact ⟨hlow, .inr ⟨hfit, hhigh⟩⟩

end Sys2Proof.Machine
end

section
/-! The front ends of ADD, MUL and DIV on exact magnitudes (44_add_sub.md, 45_multiply.md, 46_divide.md). -/

namespace Sys2Proof.Machine

/-! ### Signed magnitudes -/

/-- Signs multiply apart from magnitudes, by exclusive or (R142, R152). -/
theorem signed_mul (s t : Bool) (x y : ℚ) : signed s x * signed t y = signed (xor s t) (x * y) := by
  cases s <;> cases t <;> simp [signed]

/-- Signs divide apart from magnitudes, by exclusive or (R142, R152). -/
theorem signed_div (s t : Bool) (x y : ℚ) : signed s x / signed t y = signed (xor s t) (x / y) := by
  cases s <;> cases t <;> simp [signed, neg_div, div_neg]

/-- Of equal signs, magnitudes add (R134). -/
theorem signed_add_of_eq {s t : Bool} (h : s = t) (x y : ℚ) : signed s x + signed t y = signed s (x + y) := by
  subst h
  cases s <;> simp [signed, add_comm]

/-- Of different signs, magnitudes subtract (R134). -/
theorem signed_add_of_ne {s t : Bool} (h : s ≠ t) (x y : ℚ) : signed s x + signed t y = signed s (x - y) := by
  obtain rfl := Bool.eq_not_of_ne h.symm
  cases s <;> simp [signed, sub_eq_add_neg, add_comm]

/-! ### Prepared operands -/

/-- The magnitude a prepared operand stands for (R111). -/
def prepValue (v : Byte) : ℚ := scaledValue (prep v).k (prep v).sig (prep v).fl

/-- The sign of a prepared operand is the sign bit (R111). -/
theorem prep_sign {v : Byte} (h : isFiniteNonzero v = true) : (prep v).sign = signBit v :=
  congrArg Fields.sign (decodeFields_of_finite h)

/-- A value is the magnitude of the prepared operand with its sign (R111). -/
theorem eq_signed_prepValue {v : Byte} (h : isFiniteNonzero v = true) {x : ℚ} (hx : value v = some x) :
    x = signed (prep v).sign (prepValue v) :=
  Option.some.inj (hx.symm.trans (value_prep v h))

/-- The magnitude of a finite non-zero byte lies between the powers of two at its scale, and in 1/64..64 (R54). -/
theorem prepValue_range {v : Byte} (h : isFiniteNonzero v = true) :
    (2 : ℚ) ^ (prep v).k ≤ prepValue v ∧ prepValue v < (2 : ℚ) ^ ((prep v).k + 1) ∧
      (2 : ℚ) ^ (-6 : Int) ≤ prepValue v ∧ prepValue v ≤ (2 : ℚ) ^ (6 : Int) := by
  obtain ⟨hk, -, -, hsig, hsig'⟩ := prep_range v h
  obtain ⟨hlow, hhigh⟩ := scaledValue_range hsig hsig' (k := (prep v).k)
  refine ⟨hlow, hhigh, (zpow_le_zpow_right₀ one_le_two hk).trans hlow, ?_⟩
  obtain ⟨hmin, hmax⟩ := sixtyFourths_range v
  have hunits := eq_sixtyFourths_of_value (value_prep v h)
  have hmin' : (-4096 : ℚ) ≤ sixtyFourths v := mod_cast hmin
  have hmax' : (sixtyFourths v : ℚ) ≤ 4096 := mod_cast hmax
  norm_num
  cases hs : (prep v).sign <;> simp only [hs, signed, Bool.false_eq_true, if_false, if_true] at hunits <;>
    unfold prepValue <;> linarith

/-- A magnitude is positive. -/
theorem prepValue_pos {v : Byte} (h : isFiniteNonzero v = true) : 0 < prepValue v :=
  (zpow_pos two_pos _).trans_le (prepValue_range h).1

/-- The magnitude byte has the magnitude as its value (R50). -/
theorem value_magnitude {v : Byte} (h : isFiniteNonzero v = true) : value (magnitude v) = some (prepValue v) := by
  have hsign := prep_sign h
  unfold magnitude
  split
  · rename_i hneg
    rw [value_prep _ ((isFiniteNonzero_neg8 v).trans h), prep_neg8 v h]
    simp [hsign, hneg, signed, prepValue]
  · rename_i hpos
    rw [value_prep v h, hsign, Bool.eq_false_of_not_eq_true hpos]
    rfl

/-- Magnitudes are ordered as magnitude bytes (R55). -/
theorem prepValue_lt_iff {v w : Byte} (hv : isFiniteNonzero v = true) (hw : isFiniteNonzero w = true) :
    prepValue v < prepValue w ↔ (magnitude v).toNat < (magnitude w).toNat := by
  obtain ⟨-, hv127⟩ := magnitude_range v hv
  obtain ⟨-, hw127⟩ := magnitude_range w hw
  rw [valuesAreOrderedAsSignedBytes _ _ _ _ (value_magnitude hv) (value_magnitude hw),
    BitVec.toInt_eq_toNat_of_lt (by omega), BitVec.toInt_eq_toNat_of_lt (by omega), Nat.cast_lt]

/-- Equal magnitude bytes with different signs are exact inverses (R50). -/
theorem eq_neg8_of_magnitude_eq {v w : Byte} (hmag : magnitude v = magnitude w) (hsign : signBit v ≠ signBit w) :
    v = neg8 w := by
  rw [← withSign_magnitude v, ← withSign_magnitude w, neg8_withSign, hmag, Bool.eq_not_of_ne hsign]

/-- The fraction length of a prepared operand is the one that goes with its scale: no fraction at scale 6 (R54). -/
theorem prep_fl_eq_zero {v : Byte} (h : isFiniteNonzero v = true) (hk : (prep v).k = 6) : (prep v).fl = 0 := by
  obtain ⟨row, hrow, -, -, hfields⟩ := decodeFields_row h
  obtain ⟨-, -, hfl, -⟩ := regimeTable_spec row hrow
  simp only [prep, hfields] at hk ⊢
  exact hfl hk

/-! ### Alignment and renormalisation -/

/-- Aligned to `W` fraction bits, a significand keeps its hidden bit above them (R133, R143, R153). -/
theorem aligned_range {M fl W : Nat} (h : 2 ^ fl ≤ M ∧ M < 2 ^ (fl + 1)) (hW : fl ≤ W) :
    2 ^ W ≤ M * 2 ^ (W - fl) ∧ M * 2 ^ (W - fl) < 2 ^ (W + 1) := by
  obtain ⟨n, rfl⟩ := Nat.exists_eq_add_of_le hW
  rw [Nat.add_sub_cancel_left, pow_add, Nat.add_right_comm, pow_add]
  exact ⟨Nat.mul_le_mul_right _ h.1, Nat.mul_lt_mul_of_pos_right h.2 (by positivity)⟩

/-- Alignment to more fraction bits is exact (R133, R143). -/
theorem scaledValue_aligned (k : Int) (M : Nat) {fl W : Nat} (hW : fl ≤ W) :
    scaledValue k (M * 2 ^ (W - fl)) W = scaledValue k M fl := by
  rw [← scaledValue_mul_two_pow k M fl (W - fl), Nat.add_sub_cancel' hW]

/-- Scale and width that differ by the same amount give the same magnitude (R112). -/
theorem scaledValue_congr {k k' : Int} {W W' : Nat} (h : k - W = k' - W') (M : Nat) :
    scaledValue k M W = scaledValue k' M W' := by
  rw [scaledValue_eq, scaledValue_eq, h]

/-- One step up in scale and width where the significand has grown by a bit (R134, R144). -/
def renormUp (R : Nat) (k : Int) (W : Nat) : Int × Nat := if 1 <<< (W + 1) ≤ R then (k + 1, W + 1) else (k, W)

/-- The step up takes as much to the scale as to the width, and leaves at most one bit above the fraction. -/
theorem renormUp_spec {R W : Nat} (h : R < 2 ^ (W + 2)) (k : Int) :
    R < 2 ^ ((renormUp R k W).2 + 1) ∧ (renormUp R k W).1 - ((renormUp R k W).2 : Int) = k - W ∧
      (renormUp R k W).2 ≤ W + 1 ∧ (2 ^ W ≤ R → 2 ^ (renormUp R k W).2 ≤ R) := by
  unfold renormUp
  rw [Nat.shiftLeft_eq, Nat.one_mul]
  split
  · exact ⟨h, by omega, le_rfl, fun _ => ‹_›⟩
  · exact ⟨Nat.lt_of_not_le ‹_›, rfl, Nat.le_succ W, id⟩

/-! ### The back end with the sign -/

/-- The back end of a normalised result with the sign and a magnitude of `z` is the posit nearest to `z` (R122). -/
theorem nearestPosit_roundPack {u : Unrounded} (h : Normalised u) {y z : ℚ} (hy : StandsFor u y)
    (hz : z = signed u.sign y) : NearestPosit z (roundPack u) := by
  have hpos : 0 < y := (zpow_pos two_pos u.k).trans_le (standsFor_range h hy).1
  obtain ⟨habs, hsign⟩ := abs_signed hpos u.sign
  subst hz
  refine ⟨roundPack { u with sign := false }, habs.symm ▸ nearestMagnitude_roundPack h hy, ?_⟩
  calc roundPack u = withSign u.sign (roundPack { u with sign := false }) := rfl
    _ = withSign (decide (signed u.sign y < 0)) (roundPack { u with sign := false }) := by rw [hsign]
    _ = _ := by simp only [withSign, decide_eq_true_eq]

end Sys2Proof.Machine
end

section
/-! The multiplier: its front end is exact, and products are the nearest posits (45_multiply.md). -/

namespace Sys2Proof.Machine

/-- The width both operands of MUL are aligned to (R143). -/
def mulWidth (a b : Byte) : Nat := max (prep a).fl (prep b).fl

/-- The exact product of the aligned significands (R143). -/
def mulProduct (a b : Byte) : Nat :=
  (prep a).sig * 2 ^ (mulWidth a b - (prep a).fl) * ((prep b).sig * 2 ^ (mulWidth a b - (prep b).fl))

/-- MUL's front end is the product, renormalised up (R142 to R144). -/
theorem mulFront_eq (a b : Byte) :
    mulFront a b =
      { sign := xor (prep a).sign (prep b).sign
        k := (renormUp (mulProduct a b) ((prep a).k + (prep b).k) (2 * mulWidth a b)).1
        sig := mulProduct a b
        width := (renormUp (mulProduct a b) ((prep a).k + (prep b).k) (2 * mulWidth a b)).2
        sticky := false } := by
  simp only [mulProduct, ← Nat.shiftLeft_eq]
  rfl

section
variable {a b : Byte} (ha : isFiniteNonzero a = true) (hb : isFiniteNonzero b = true)
include ha hb

/-- The product of the aligned significands lies between the squares of the hidden bit's place and of the next
(R143). -/
theorem mulProduct_range : 2 ^ (2 * mulWidth a b) ≤ mulProduct a b ∧ mulProduct a b < 2 ^ (2 * mulWidth a b + 2) := by
  obtain ⟨-, -, -, hA⟩ := prep_range a ha
  obtain ⟨-, -, -, hB⟩ := prep_range b hb
  obtain ⟨hA1, hA2⟩ := aligned_range hA (le_max_left _ (prep b).fl)
  obtain ⟨hB1, hB2⟩ := aligned_range hB (le_max_right (prep a).fl _)
  rw [two_mul, pow_add]
  refine ⟨Nat.mul_le_mul hA1 hB1, ?_⟩
  calc mulProduct a b < 2 ^ (mulWidth a b + 1) * 2 ^ (mulWidth a b + 1) := Nat.mul_lt_mul'' hA2 hB2
    _ = 2 ^ (mulWidth a b + mulWidth a b + 2) := by ring

/-- The front end's magnitude is the product of the operands' magnitudes, normalised (R143, R144). -/
theorem mulFront_spec : Normalised (mulFront a b) ∧
    scaledValue (mulFront a b).k (mulFront a b).sig (mulFront a b).width = prepValue a * prepValue b ∧
    (mulFront a b).k - ((mulFront a b).width : Int) = (prep a).k + (prep b).k - (2 * mulWidth a b : Nat) ∧
    (mulFront a b).width ≤ 2 * mulWidth a b + 1 := by
  obtain ⟨hlow, hhigh⟩ := mulProduct_range ha hb
  obtain ⟨hlt, hdiff, hle, hge⟩ := renormUp_spec hhigh ((prep a).k + (prep b).k)
  rw [mulFront_eq]
  refine ⟨⟨hge hlow, hlt⟩, ?_, hdiff, hle⟩
  calc scaledValue _ (mulProduct a b) _
      = scaledValue ((prep a).k + (prep b).k) (mulProduct a b) (2 * mulWidth a b) := scaledValue_congr hdiff _
    _ = scaledValue (prep a).k ((prep a).sig * 2 ^ (mulWidth a b - (prep a).fl)) (mulWidth a b) *
        scaledValue (prep b).k ((prep b).sig * 2 ^ (mulWidth a b - (prep b).fl)) (mulWidth a b) := by
      simp only [scaledValue, mulProduct, zpow_add₀ (two_ne_zero (α := ℚ)), two_mul, pow_add]
      push_cast
      ring
    _ = prepValue a * prepValue b :=
      congrArg₂ (· * ·) (scaledValue_aligned _ _ (le_max_left _ _)) (scaledValue_aligned _ _ (le_max_right _ _))

end

/-- Settles O33: the signs multiply apart from the magnitudes, which `mulFront_spec` multiplies exactly. -/
theorem productFrontEndIsExact : Obligations.ProductFrontEndIsExact := by
  intro a b x y ha hb hx hy
  obtain ⟨hnorm, hvalue, -, -⟩ := mulFront_spec ha hb
  refine ⟨hnorm, by rw [mulFront_eq], ?_⟩
  rw [hvalue, eq_signed_prepValue ha hx, eq_signed_prepValue hb hy, signed_mul, mulFront_eq]

/-- Past the degenerate table, a product is the back end's of the front end's result (R145). -/
theorem mul_of_finite (P : Params) {a b : Byte} (ha : isFiniteNonzero a = true) (hb : isFiniteNonzero b = true) :
    mul P a b = roundPack (mulFront a b) := by
  obtain ⟨ha0, ha'⟩ := (isFiniteNonzero_iff a).mp ha
  obtain ⟨hb0, hb'⟩ := (isFiniteNonzero_iff b).mp hb
  simp only [mul, ha0, ha', hb0, hb', false_and, or_self, if_false]

/-- The front end's result is exact, so the back end rounds the exact product. -/
theorem nearestPosit_mul (P : Params) {a b : Byte} {x y : ℚ} (ha : isFiniteNonzero a = true)
    (hb : isFiniteNonzero b = true) (hx : value a = some x) (hy : value b = some y) :
    NearestPosit (x * y) (mul P a b) := by
  obtain ⟨hnorm, hsticky, hvalue⟩ := productFrontEndIsExact a b x y ha hb hx hy
  rw [mul_of_finite P ha hb]
  exact nearestPosit_roundPack hnorm (standsFor_self hsticky) hvalue.symm

/-- Settles O41, by `nearestPosit_mul`. -/
theorem productsAreNearestPosits : Obligations.ProductsAreNearestPosits :=
  fun s a b _ _ ha hb hx hy => ⟨mul s.params a b, exec_mul s a b, nearestPosit_mul s.params ha hb hx hy⟩

end Sys2Proof.Machine
end

section
/-! The adder: its front end is exact, and sums are the nearest posits (44_add_sub.md). -/

namespace Sys2Proof.Machine

/-- The width both operands of the raw operation are aligned to (R133). -/
def addWidth (L S : Prepared) : Nat := max L.fl (S.fl + (L.k - S.k).toNat)

/-- The larger operand's aligned significand (R133). -/
def addLarger (L S : Prepared) : Nat := L.sig * 2 ^ (addWidth L S - L.fl)

/-- The smaller operand's aligned significand (R133). -/
def addSmaller (L S : Prepared) : Nat := S.sig * 2 ^ (addWidth L S - (S.fl + (L.k - S.k).toNat))

/-- The raw sum or difference of the aligned significands (R134). -/
def addRaw (L S : Prepared) : Nat :=
  if L.sign = S.sign then addLarger L S + addSmaller L S else addLarger L S - addSmaller L S

/-- The raw result is at most the sum of the aligned significands (R134). -/
theorem addRaw_le (L S : Prepared) : addRaw L S ≤ addLarger L S + addSmaller L S := by
  unfold addRaw
  split <;> omega

/-- ADD's front end is the raw result, renormalised up and then down (R132 to R135). -/
theorem addAligned_eq (L S : Prepared) :
    addAligned L S =
      { sign := L.sign
        k := (renormDown (addRaw L S) (renormUp (addRaw L S) L.k (addWidth L S)).1
          (renormUp (addRaw L S) L.k (addWidth L S)).2).1
        sig := addRaw L S
        width := (renormDown (addRaw L S) (renormUp (addRaw L S) L.k (addWidth L S)).1
          (renormUp (addRaw L S) L.k (addWidth L S)).2).2
        sticky := false } := by
  simp only [addRaw, addLarger, addSmaller, ← Nat.shiftLeft_eq]
  rfl

/-- At one scale and width, magnitudes add as their significands (R134). -/
theorem scaledValue_add (k : Int) (M N W : Nat) :
    scaledValue k (M + N) W = scaledValue k M W + scaledValue k N W := by
  simp only [scaledValue, Nat.cast_add, add_div, mul_add]

/-- At one scale and width, magnitudes subtract as their significands (R134). -/
theorem scaledValue_sub (k : Int) {M N : Nat} (h : N ≤ M) (W : Nat) :
    scaledValue k (M - N) W = scaledValue k M W - scaledValue k N W := by
  simp only [scaledValue, Nat.cast_sub h, sub_div, mul_sub]

section
variable {v w : Byte} (hv : isFiniteNonzero v = true) (hw : isFiniteNonzero w = true)
  (hle : prepValue w ≤ prepValue v)
include hv hw hle

/-- The larger magnitude has no smaller scale (R132, R133). -/
theorem prep_k_le : (prep w).k ≤ (prep v).k := by
  obtain ⟨hlow, -⟩ := prepValue_range hw
  obtain ⟨-, hhigh, -⟩ := prepValue_range hv
  have := (zpow_lt_zpow_iff_right₀ (one_lt_two (α := ℚ))).mp ((hlow.trans hle).trans_lt hhigh)
  omega

/-- Alignment is exact for both operands, and keeps their order (R133). -/
theorem addAligned_operands :
    scaledValue (prep v).k (addLarger (prep v) (prep w)) (addWidth (prep v) (prep w)) = prepValue v ∧
    scaledValue (prep v).k (addSmaller (prep v) (prep w)) (addWidth (prep v) (prep w)) = prepValue w ∧
    addSmaller (prep v) (prep w) ≤ addLarger (prep v) (prep w) ∧
    addLarger (prep v) (prep w) < 2 ^ (addWidth (prep v) (prep w) + 1) := by
  have hk := prep_k_le hv hw hle
  obtain ⟨-, -, -, hsig⟩ := prep_range v hv
  have hlarger := scaledValue_aligned (prep v).k (prep v).sig
    (le_max_left (prep v).fl ((prep w).fl + ((prep v).k - (prep w).k).toNat))
  have hsmaller := (scaledValue_aligned (prep v).k (prep w).sig
    (le_max_right (prep v).fl ((prep w).fl + ((prep v).k - (prep w).k).toNat))).trans
    (scaledValue_congr (k' := (prep w).k) (W' := (prep w).fl) (by omega) (prep w).sig)
  refine ⟨hlarger, hsmaller, ?_, (aligned_range hsig (le_max_left _ _)).2⟩
  exact (scaledValue_le_iff _).mp (hsmaller.trans_le (hle.trans hlarger.ge))

variable (hne : v ≠ neg8 w)
include hne

/-- The raw result is positive, exact, and has at most one bit above the hidden bit's place (R134). -/
theorem addRaw_spec :
    0 < addRaw (prep v) (prep w) ∧ addRaw (prep v) (prep w) < 2 ^ (addWidth (prep v) (prep w) + 2) ∧
      signed (prep v).sign (scaledValue (prep v).k (addRaw (prep v) (prep w)) (addWidth (prep v) (prep w))) =
        signed (prep v).sign (prepValue v) + signed (prep w).sign (prepValue w) := by
  obtain ⟨hlarger, hsmaller, horder, hhigh⟩ := addAligned_operands hv hw hle
  have hpos : 0 < addLarger (prep v) (prep w) := by
    obtain ⟨-, -, -, hsig, -⟩ := prep_range v hv
    exact Nat.mul_pos ((Nat.two_pow_pos _).trans_le hsig) (Nat.two_pow_pos _)
  rw [pow_succ] at hhigh ⊢
  rw [pow_succ]
  unfold addRaw
  split
  · rename_i hsign
    refine ⟨by omega, by omega, ?_⟩
    rw [scaledValue_add, hlarger, hsmaller, signed_add_of_eq hsign]
  · rename_i hsign
    have hstrict : addSmaller (prep v) (prep w) ≠ addLarger (prep v) (prep w) := by
      intro heq
      have hvalue : prepValue v = prepValue w := by rw [← hlarger, ← hsmaller, heq]
      rw [prep_sign hv, prep_sign hw] at hsign
      have hmag := value_injective (value_magnitude hv) (hvalue ▸ value_magnitude hw)
      exact hne (eq_neg8_of_magnitude_eq hmag hsign)
    refine ⟨by omega, by omega, ?_⟩
    rw [scaledValue_sub _ horder, hlarger, hsmaller, signed_add_of_ne hsign]

/-- Renormalisation keeps the raw result's magnitude and puts its highest 1 right above the fraction (R135). -/
theorem addAligned_spec :
    Normalised (addAligned (prep v) (prep w)) ∧ (addAligned (prep v) (prep w)).sticky = false ∧
      signed (addAligned (prep v) (prep w)).sign (scaledValue (addAligned (prep v) (prep w)).k
          (addAligned (prep v) (prep w)).sig (addAligned (prep v) (prep w)).width) =
        signed (prep v).sign (prepValue v) + signed (prep w).sign (prepValue w) ∧
      (addAligned (prep v) (prep w)).k - ((addAligned (prep v) (prep w)).width : Int) =
        (prep v).k - addWidth (prep v) (prep w) ∧
      (addAligned (prep v) (prep w)).width ≤ addWidth (prep v) (prep w) + 1 := by
  obtain ⟨hpos, hhigh, hvalue⟩ := addRaw_spec hv hw hle hne
  obtain ⟨hlt, hup, hupLe, -⟩ := renormUp_spec hhigh (prep v).k
  obtain ⟨hlow, hlt', hdownLe, hdown⟩ := renormDown_spec _ hpos _ (renormUp (addRaw (prep v) (prep w)) (prep v).k
    (addWidth (prep v) (prep w))).1 hlt
  have hdiff := hdown.trans hup
  rw [addAligned_eq]
  refine ⟨⟨hlow, hlt'⟩, rfl, ?_, hdiff, hdownLe.trans hupLe⟩
  rw [← hvalue]
  exact congrArg (signed (prep v).sign) (scaledValue_congr hdiff _)

end

/-- The front end takes the operands in one of the two orders, the larger magnitude first (R132). -/
theorem addFront_cases {a b : Byte} (ha : isFiniteNonzero a = true) (hb : isFiniteNonzero b = true) :
    (addFront a b = addAligned (prep a) (prep b) ∧ prepValue b ≤ prepValue a) ∨
    (addFront a b = addAligned (prep b) (prep a) ∧ prepValue a ≤ prepValue b) := by
  unfold addFront
  split
  · rename_i hle
    exact .inl ⟨rfl, le_of_not_gt fun hlt => hle.not_gt ((prepValue_lt_iff ha hb).mp hlt)⟩
  · rename_i hlt
    exact .inr ⟨rfl, ((prepValue_lt_iff ha hb).mpr (Nat.lt_of_not_le hlt)).le⟩

/-- Settles O32: in either order of the operands the front end is exact (`addAligned_spec`), and the sum is the
same. -/
theorem sumFrontEndIsExact : Obligations.SumFrontEndIsExact := by
  intro a b x y ha hb hne hx hy
  rw [eq_signed_prepValue ha hx, eq_signed_prepValue hb hy]
  obtain ⟨hfront, hle⟩ | ⟨hfront, hle⟩ := addFront_cases ha hb
  · obtain ⟨hnorm, hsticky, hvalue, -⟩ := addAligned_spec ha hb hle hne
    rw [hfront]
    exact ⟨hnorm, hsticky, hvalue⟩
  · have hne' : b ≠ neg8 a := fun h => hne (by rw [h, neg8_neg8])
    obtain ⟨hnorm, hsticky, hvalue, -⟩ := addAligned_spec hb ha hle hne'
    rw [hfront, add_comm]
    exact ⟨hnorm, hsticky, hvalue⟩

/-- Past the degenerate table, a sum is the back end's of the front end's result (R136). -/
theorem add_of_finite {a b : Byte} (ha : isFiniteNonzero a = true) (hb : isFiniteNonzero b = true)
    (hne : a ≠ neg8 b) : add a b = roundPack (addFront a b) := by
  obtain ⟨ha0, ha'⟩ := (isFiniteNonzero_iff a).mp ha
  obtain ⟨hb0, hb'⟩ := (isFiniteNonzero_iff b).mp hb
  simp only [add, ha0, ha', hb0, hb', hne, or_self, if_false]

/-- The front end's result is exact, so the back end rounds the exact sum. -/
theorem nearestPosit_add {a b : Byte} {x y : ℚ} (ha : isFiniteNonzero a = true) (hb : isFiniteNonzero b = true)
    (hne : a ≠ neg8 b) (hx : value a = some x) (hy : value b = some y) : NearestPosit (x + y) (add a b) := by
  obtain ⟨hnorm, hsticky, hvalue⟩ := sumFrontEndIsExact a b x y ha hb hne hx hy
  rw [add_of_finite ha hb hne]
  exact nearestPosit_roundPack hnorm (standsFor_self hsticky) hvalue.symm

/-- Settles O37, by `nearestPosit_add`. -/
theorem sumsAreNearestPosits : Obligations.SumsAreNearestPosits :=
  fun s a b _ _ ha hb hne hx hy => ⟨add a b, exec_add s a b, nearestPosit_add ha hb hne hx hy⟩

end Sys2Proof.Machine
end

section
/-! The divider: its front end brackets the quotient, and quotients are the nearest posits (46_divide.md). -/

namespace Sys2Proof.Machine

/-- A significand at the divider's 7 fraction bits (R153). -/
def sig7 (v : Byte) : Nat := (prep v).sig * 2 ^ (7 - (prep v).fl)

/-- The floor of the long division (R153). -/
def divQuotient (a b : Byte) : Nat := sig7 a * 2 ^ 7 / sig7 b

/-- DIV's front end is the quotient, moved up by one position where it is short (R152 to R154). -/
theorem divFront_eq (a b : Byte) :
    divFront a b =
      { sign := xor (prep a).sign (prep b).sign
        k := if divQuotient a b < 2 ^ 7 then (prep a).k - (prep b).k - 1 else (prep a).k - (prep b).k
        sig := if divQuotient a b < 2 ^ 7 then divQuotient a b * 2 ^ 1 else divQuotient a b
        width := 7
        sticky := sig7 a * 2 ^ 7 % sig7 b != 0 } := by
  have hshort : divQuotient a b >>> 7 = 0 ↔ divQuotient a b < 2 ^ 7 := by
    rw [Nat.shiftRight_eq_div_pow, Nat.div_eq_zero_iff_lt (by decide)]
  simp only [← hshort]
  simp only [divFront, divQuotient, sig7, Nat.shiftLeft_eq]
  split <;> rename_i h <;> simp only [h, if_true, if_false]

section
variable {a b : Byte} (ha : isFiniteNonzero a = true) (hb : isFiniteNonzero b = true)
include ha

/-- Aligned to 7 fraction bits, a significand has its hidden bit at bit 7 and keeps its magnitude (R153). -/
theorem sig7_spec : 2 ^ 7 ≤ sig7 a ∧ sig7 a < 2 ^ 8 ∧ scaledValue (prep a).k (sig7 a) 7 = prepValue a := by
  obtain ⟨-, -, hfl, hsig⟩ := prep_range a ha
  have hfl7 : (prep a).fl ≤ 7 := by omega
  obtain ⟨hlow, hhigh⟩ := aligned_range hsig hfl7
  exact ⟨hlow, hhigh, scaledValue_aligned _ _ hfl7⟩

include hb

/-- The quotient of the magnitudes is that of the aligned significands, at the difference of the scales (R153). -/
theorem prepValue_div : prepValue a / prepValue b = (2 : ℚ) ^ ((prep a).k - (prep b).k) * (sig7 a / sig7 b) := by
  obtain ⟨-, -, hA⟩ := sig7_spec ha
  obtain ⟨-, -, hB⟩ := sig7_spec hb
  rw [← hA, ← hB, scaledValue, scaledValue, zpow_sub₀ two_ne_zero]
  field_simp

/-- Comparing a significand with the quotient of the magnitudes is comparing it, times the divisor, with the long
division's dividend (R153). -/
theorem scaledValue_quotient_iff (M : Nat) :
    (scaledValue ((prep a).k - (prep b).k) M 7 ≤ prepValue a / prepValue b ↔ M * sig7 b ≤ sig7 a * 2 ^ 7) ∧
    (scaledValue ((prep a).k - (prep b).k) M 7 = prepValue a / prepValue b ↔ M * sig7 b = sig7 a * 2 ^ 7) := by
  obtain ⟨hB7, -⟩ := sig7_spec hb
  have hBpos : (0 : ℚ) < sig7 b := mod_cast (Nat.two_pow_pos 7).trans_le hB7
  have hscale : (0 : ℚ) < 2 ^ ((prep a).k - (prep b).k) := by positivity
  rw [prepValue_div ha hb, scaledValue, mul_le_mul_iff_right₀ hscale, mul_right_inj' hscale.ne',
    div_le_div_iff₀ (by positivity) hBpos, div_eq_div_iff (by positivity) hBpos.ne']
  exact ⟨by exact_mod_cast Iff.rfl, by exact_mod_cast Iff.rfl⟩

/-- The long division's floor brackets the quotient of the magnitudes, and is it when nothing remains (R153). -/
theorem divQuotient_spec :
    scaledValue ((prep a).k - (prep b).k) (divQuotient a b) 7 ≤ prepValue a / prepValue b ∧
    prepValue a / prepValue b < scaledValue ((prep a).k - (prep b).k) (divQuotient a b + 1) 7 ∧
    (scaledValue ((prep a).k - (prep b).k) (divQuotient a b) 7 = prepValue a / prepValue b ↔
      sig7 a * 2 ^ 7 % sig7 b = 0) ∧
    2 ^ 6 ≤ divQuotient a b ∧ divQuotient a b < 2 ^ 8 := by
  obtain ⟨hA, hA', -⟩ := sig7_spec ha
  obtain ⟨hB, hB', -⟩ := sig7_spec hb
  have hBpos : 0 < sig7 b := (Nat.two_pow_pos 7).trans_le hB
  have hlow := (scaledValue_quotient_iff ha hb (divQuotient a b)).1.mpr (Nat.div_mul_le_self _ _)
  refine ⟨hlow, ?_, ?_, ?_, ?_⟩
  · rw [← not_le, (scaledValue_quotient_iff ha hb _).1, not_le]
    exact Nat.lt_mul_of_div_lt (Nat.lt_succ_self _) hBpos
  · rw [(scaledValue_quotient_iff ha hb _).2]
    have hdivision : divQuotient a b * sig7 b + sig7 a * 2 ^ 7 % sig7 b = sig7 a * 2 ^ 7 := Nat.div_add_mod' _ _
    omega
  · rw [divQuotient, Nat.le_div_iff_mul_le hBpos]; omega
  · rw [divQuotient, Nat.div_lt_iff_lt_mul hBpos]; omega

/-- The one-position correction normalises the quotient; what the division left out may then lie up to two units above
the significand, whose last bit is 0 (R154). -/
theorem divFront_spec :
    Normalised (divFront a b) ∧
    (scaledValue (divFront a b).k (divFront a b).sig 7 = prepValue a / prepValue b ↔
      (divFront a b).sticky = false) ∧
    scaledValue (divFront a b).k (divFront a b).sig 7 ≤ prepValue a / prepValue b ∧
    ∃ j, j ≤ 1 ∧ 2 ^ j ∣ (divFront a b).sig ∧
      prepValue a / prepValue b < scaledValue (divFront a b).k ((divFront a b).sig + 2 ^ j) 7 := by
  obtain ⟨hlow, hhigh, hexact, hmin, hmax⟩ := divQuotient_spec ha hb
  have hsticky : (sig7 a * 2 ^ 7 % sig7 b != 0) = false ↔ sig7 a * 2 ^ 7 % sig7 b = 0 := by simp
  rw [divFront_eq]
  simp only [hsticky, ← hexact]
  split
  · rename_i hshort
    have hshift (M : Nat) : scaledValue ((prep a).k - (prep b).k - 1) (M * 2 ^ 1) 7 =
        scaledValue ((prep a).k - (prep b).k) M 7 :=
      (scaledValue_congr (by omega) _).trans (scaledValue_mul_two_pow _ M 7 1)
    rw [hshift]
    have hnorm : 2 ^ 7 ≤ divQuotient a b * 2 ^ 1 ∧ divQuotient a b * 2 ^ 1 < 2 ^ (7 + 1) := by omega
    refine ⟨hnorm, Iff.rfl, hlow, 1, le_rfl, Dvd.intro_left _ rfl, ?_⟩
    rwa [← Nat.succ_mul, hshift]
  · rename_i hlong
    exact ⟨⟨Nat.le_of_not_lt hlong, hmax⟩, Iff.rfl, hlow, 0, by omega, one_dvd _, hhigh⟩

/-- The front end stands for the quotient of the magnitudes: the widest regime leaves it two bits to discard (R154). -/
theorem standsFor_divFront : StandsFor (divFront a b) (prepValue a / prepValue b) := by
  obtain ⟨-, hexact, hlow, j, hj, hdvd, hhigh⟩ := divFront_spec ha hb
  have hwidth : (divFront a b).width = 7 := by rw [divFront_eq]
  have hfl : (regimeEncode (divFront a b).k).fl ≤ 5 := by
    obtain ⟨hlen, -, hfl, -⟩ := regimeEncode_range (divFront a b).k
    omega
  unfold StandsFor
  rw [hwidth]
  cases hsticky : (divFront a b).sticky with
  | false => exact (hexact.mpr hsticky).symm
  | true =>
    have hne := hexact.not.mpr (by rw [hsticky]; exact Bool.noConfusion)
    exact ⟨lt_of_le_of_ne hlow hne, .inl ⟨j, hdvd, by omega, hhigh⟩⟩

end

/-- Settles O34: the signs divide apart from the magnitudes, whose quotient `divFront_spec` brackets. -/
theorem quotientFrontEndBracketsTheQuotient : Obligations.QuotientFrontEndBracketsTheQuotient := by
  intro a b x y ha hb hx hy
  obtain ⟨hnorm, hexact, hlow, j, hj, hdvd, hhigh⟩ := divFront_spec ha hb
  have hpos : 0 < prepValue a / prepValue b := div_pos (prepValue_pos ha) (prepValue_pos hb)
  obtain ⟨habs, hsign⟩ := abs_signed hpos (xor (prep a).sign (prep b).sign)
  rw [eq_signed_prepValue ha hx, eq_signed_prepValue hb hy, signed_div, habs, hsign]
  exact ⟨hnorm, by rw [divFront_eq], by rw [divFront_eq], hexact, j, hj, hdvd, hlow, hhigh⟩

/-- Past the degenerate table, a quotient is the back end's of the front end's result (R155). -/
theorem div_of_finite (P : Params) {a b : Byte} (ha : isFiniteNonzero a = true) (hb : isFiniteNonzero b = true) :
    div P a b = roundPack (divFront a b) := by
  obtain ⟨ha0, ha'⟩ := (isFiniteNonzero_iff a).mp ha
  obtain ⟨hb0, hb'⟩ := (isFiniteNonzero_iff b).mp hb
  simp only [div, ha0, ha', hb0, hb', false_and, or_self, if_false]

/-- The front end's result stands for the exact quotient, which the back end rounds. -/
theorem nearestPosit_div (P : Params) {a b : Byte} {x y : ℚ} (ha : isFiniteNonzero a = true)
    (hb : isFiniteNonzero b = true) (hx : value a = some x) (hy : value b = some y) :
    NearestPosit (x / y) (div P a b) := by
  obtain ⟨hnorm, -⟩ := divFront_spec ha hb
  rw [div_of_finite P ha hb]
  refine nearestPosit_roundPack hnorm (standsFor_divFront ha hb) ?_
  rw [eq_signed_prepValue ha hx, eq_signed_prepValue hb hy, signed_div, divFront_eq]

/-- Settles O44, by `nearestPosit_div`. -/
theorem quotientsAreNearestPosits : Obligations.QuotientsAreNearestPosits :=
  fun s a b _ _ ha hb hx hy => ⟨div s.params a b, exec_div s a b, nearestPosit_div s.params ha hb hx hy⟩

/-! ### The ranges that reach the back end -/

/-- The scale of a magnitude that is at least `2^m` and at most `2^n` is in `m..n`. -/
theorem scale_range {k m n : Int} {x : ℚ} (hk : (2 : ℚ) ^ k ≤ x ∧ x < (2 : ℚ) ^ (k + 1)) (hm : (2 : ℚ) ^ m ≤ x)
    (hn : x ≤ (2 : ℚ) ^ n) : m ≤ k ∧ k ≤ n :=
  ⟨Int.lt_add_one_iff.mp ((zpow_lt_zpow_iff_right₀ one_lt_two).mp (hm.trans_lt hk.2)),
    (zpow_le_zpow_iff_right₀ one_lt_two).mp (hk.1.trans hn)⟩

section
variable {a b : Byte} (ha : isFiniteNonzero a = true) (hb : isFiniteNonzero b = true)
include ha hb

/-- A product of magnitudes in 2^-6..2^6 is in 2^-12..2^12. -/
theorem mulFront_range : -12 ≤ (mulFront a b).k ∧ (mulFront a b).k ≤ 12 ∧ (mulFront a b).width ≤ 11 := by
  obtain ⟨hnorm, hvalue, -, hwidth⟩ := mulFront_spec ha hb
  obtain ⟨-, -, ha6, ha6'⟩ := prepValue_range ha
  obtain ⟨-, -, hb6, hb6'⟩ := prepValue_range hb
  have hmin : (2 : ℚ) ^ (-12 : Int) ≤ prepValue a * prepValue b := by
    calc (2 : ℚ) ^ (-12 : Int) = 2 ^ (-6 : Int) * 2 ^ (-6 : Int) := by norm_num
      _ ≤ prepValue a * prepValue b := by gcongr
  have hmax : prepValue a * prepValue b ≤ 2 ^ (12 : Int) := by
    calc prepValue a * prepValue b ≤ 2 ^ (6 : Int) * 2 ^ (6 : Int) := by gcongr
      _ = 2 ^ (12 : Int) := by norm_num
  obtain ⟨hk, hk'⟩ := scale_range (hvalue ▸ scaledValue_range hnorm.1 hnorm.2) hmin hmax
  obtain ⟨-, -, hfla, -⟩ := prep_range a ha
  obtain ⟨-, -, hflb, -⟩ := prep_range b hb
  have hmulWidth : mulWidth a b ≤ 5 := max_le hfla hflb
  exact ⟨hk, hk', by omega⟩

/-- A quotient of magnitudes in 2^-6..2^6 is in 2^-12..2^12. -/
theorem divFront_range : -12 ≤ (divFront a b).k ∧ (divFront a b).k ≤ 12 := by
  obtain ⟨hnorm, -⟩ := divFront_spec ha hb
  obtain ⟨-, -, ha6, ha6'⟩ := prepValue_range ha
  obtain ⟨-, -, hb6, hb6'⟩ := prepValue_range hb
  have hbpos := prepValue_pos hb
  have hmin : (2 : ℚ) ^ (-12 : Int) ≤ prepValue a / prepValue b := by
    calc (2 : ℚ) ^ (-12 : Int) = 2 ^ (-6 : Int) / 2 ^ (6 : Int) := by norm_num
      _ ≤ prepValue a / prepValue b := by gcongr
  have hmax : prepValue a / prepValue b ≤ 2 ^ (12 : Int) := by
    calc prepValue a / prepValue b ≤ 2 ^ (6 : Int) / 2 ^ (-6 : Int) := by gcongr
      _ = 2 ^ (12 : Int) := by norm_num
  exact scale_range (standsFor_range hnorm (standsFor_divFront ha hb)) hmin hmax

/-- The sum's magnitude is at most the sum of the magnitudes. -/
theorem addAligned_le (hle : prepValue b ≤ prepValue a) (hne : a ≠ neg8 b) :
    scaledValue (addAligned (prep a) (prep b)).k (addAligned (prep a) (prep b)).sig
      (addAligned (prep a) (prep b)).width ≤ prepValue a + prepValue b := by
  obtain ⟨-, -, -, hdiff, -⟩ := addAligned_spec ha hb hle hne
  obtain ⟨hlarger, hsmaller, -⟩ := addAligned_operands ha hb hle
  have hsig : (addAligned (prep a) (prep b)).sig ≤ addLarger (prep a) (prep b) + addSmaller (prep a) (prep b) := by
    rw [addAligned_eq]
    exact addRaw_le _ _
  rw [scaledValue_congr hdiff, ← hlarger, ← hsmaller, ← scaledValue_add, scaledValue_le_iff]
  exact hsig

/-- The scale is at most one above the larger operand's, and the last fraction bit is worth at least 2^-6, as the
operands' are. Width 13 would need scale 7, so the sum 64 + 64, which has no fraction bit. -/
theorem addAligned_range (hle : prepValue b ≤ prepValue a) (hne : a ≠ neg8 b) :
    -6 ≤ (addAligned (prep a) (prep b)).k ∧ (addAligned (prep a) (prep b)).k ≤ 7 ∧
      (addAligned (prep a) (prep b)).width ≤ 12 := by
  obtain ⟨hnorm, -, -, hdiff, hwidth⟩ := addAligned_spec ha hb hle hne
  obtain ⟨-, hka, -⟩ := prep_range a ha
  obtain ⟨-, hkb, -⟩ := prep_range b hb
  have hk := prep_k_le ha hb hle
  have hfla := prep_fl_le ha
  have hflb := prep_fl_le hb
  have hadd : addWidth (prep a) (prep b) = max (prep a).fl ((prep b).fl + ((prep a).k - (prep b).k).toNat) := rfl
  refine ⟨by omega, by omega, ?_⟩
  obtain hk6 | hk7 : (addAligned (prep a) (prep b)).k ≤ 6 ∨ (addAligned (prep a) (prep b)).k = 7 := by omega
  · omega
  have hkb6 : 6 ≤ (prep b).k := by
    obtain ⟨-, -, -, ha64⟩ := prepValue_range ha
    obtain ⟨hblow, hbhigh, -, hb64⟩ := prepValue_range hb
    have h128 := (scaledValue_range hnorm.1 hnorm.2).1.trans (addAligned_le ha hb hle hne)
    rw [hk7] at h128
    refine (scale_range ⟨hblow, hbhigh⟩ ?_ hb64).1
    norm_num at h128 ha64 ⊢
    linarith
  have hflb0 := prep_fl_eq_zero hb (by omega)
  have hfla0 := prep_fl_eq_zero ha (by omega)
  omega

end

/-- Settles O35: the scales follow from the exact magnitudes, the widths from the alignment. -/
theorem intermediateResultsStayInRange : Obligations.IntermediateResultsStayInRange := by
  refine fun a b ha hb => ⟨fun hne => ?_, mulFront_range ha hb, divFront_range ha hb⟩
  obtain ⟨hfront, hle⟩ | ⟨hfront, hle⟩ := addFront_cases ha hb
  · rw [hfront]
    exact addAligned_range ha hb hle hne
  · rw [hfront]
    exact addAligned_range hb ha hle fun h => hne (by rw [h, neg8_neg8])

end Sys2Proof.Machine
end

section
/-! The symmetries of ADD, MUL and DIV, and the degenerate tables of MUL and DIV (43_arith_common.md R123,
45_multiply.md R141, 46_divide.md R151). -/

namespace Sys2Proof.Machine

/-! ### The degenerate tables -/

/-- Zero with the sentinel is the parameter's choice (R141). -/
theorem mul_of_zero_sentinel (P : Params) {a b : Byte} (h : (a = 0x80 ∧ b = 0x00) ∨ (a = 0x00 ∧ b = 0x80)) :
    mul P a b = zeroNar P := if_pos h

/-- Past zero with the sentinel, a sentinel operand decides the product (R141). -/
theorem mul_of_sentinel (P : Params) {a b : Byte} (ha : a ≠ 0x00) (hb : b ≠ 0x00) (h : a = 0x80 ∨ b = 0x80) :
    mul P a b = 0x80 :=
  (if_neg (not_or.mpr ⟨fun h => hb h.2, fun h => ha h.1⟩)).trans (if_pos h)

/-- Past the sentinel, a zero operand decides the product (R141). -/
theorem mul_of_zero (P : Params) {a b : Byte} (ha : a ≠ 0x80) (hb : b ≠ 0x80) (h : a = 0x00 ∨ b = 0x00) :
    mul P a b = 0x00 :=
  (if_neg (not_or.mpr ⟨fun h => ha h.1, fun h => hb h.2⟩)).trans ((if_neg (not_or.mpr ⟨ha, hb⟩)).trans (if_pos h))

/-- Settles O40: one lemma about `mul` per line of the table. -/
theorem mulFollowsItsDegenerateTable : Obligations.MulFollowsItsDegenerateTable := by
  intro s a b
  simp only [exec_mul]
  refine ⟨fun h => ?_, fun ha hb h => ?_, fun ha hb h => ?_⟩
  · rw [mul_of_zero_sentinel _ h]; rfl
  · rw [mul_of_sentinel _ ha hb h]
  · rw [mul_of_zero _ ha hb h]

/-- A zero divisor comes first (R151). -/
theorem div_zero_right (P : Params) (a : Byte) : div P a 0x00 = 0x80 := if_pos rfl

/-- Zero by the sentinel is the parameter's choice (R151). -/
theorem div_zero_sentinel (P : Params) : div P 0x00 0x80 = zeroNar P := rfl

/-- Past those lines, a sentinel operand decides the quotient (R151). -/
theorem div_of_sentinel (P : Params) {a b : Byte} (hb : b ≠ 0x00) (hne : ¬ (a = 0x00 ∧ b = 0x80))
    (h : a = 0x80 ∨ b = 0x80) : div P a b = 0x80 :=
  (if_neg hb).trans ((if_neg hne).trans (if_pos h))

/-- Zero by a finite non-zero divisor is zero (R151). -/
theorem div_zero_left (P : Params) {b : Byte} (hb : b ≠ 0x00) (hb' : b ≠ 0x80) : div P 0x00 b = 0x00 := by
  have hnar : ¬ ((0x00 : Byte) = nar ∨ b = nar) := not_or.mpr ⟨by decide, hb'⟩
  exact (if_neg hb).trans ((if_neg fun h => hb' h.2).trans ((if_neg hnar).trans (if_pos rfl)))

/-- Settles O43: one lemma about `div` per line of the table. -/
theorem divFollowsItsDegenerateTable : Obligations.DivFollowsItsDegenerateTable := by
  intro s a b
  simp only [exec_div]
  refine ⟨fun hb => ?_, fun ha hb => ?_, fun hb hne h => ?_, fun hb hb' ha => ?_⟩
  · rw [hb, div_zero_right]
  · rw [ha, hb, div_zero_sentinel]; rfl
  · rw [div_of_sentinel _ hb hne h]
  · rw [ha, div_zero_left _ hb hb']

/-! ### Negation -/

/-- Only zero negates to zero (R51). -/
@[simp] theorem neg8_eq_zero_iff (x : Byte) : neg8 x = zero8 ↔ x = zero8 := by rw [neg8_eq_iff]; exact Iff.rfl

/-- Only the sentinel negates to the sentinel (R51). -/
@[simp] theorem neg8_eq_nar_iff (x : Byte) : neg8 x = nar ↔ x = nar := by rw [neg8_eq_iff]; exact Iff.rfl

/-- Either legal `P_ZERO_NAR` is its own two's complement (R141). -/
@[simp] theorem neg8_zeroNar (P : Params) : neg8 (zeroNar P) = zeroNar P :=
  (neg8_eq_self _).mpr (zeroNar_legal P).symm

/-- Negating an operand of MUL's front end flips the sign and nothing else (R142). -/
theorem mulFront_neg8_left {a : Byte} (ha : isFiniteNonzero a = true) (b : Byte) :
    mulFront (neg8 a) b = { mulFront a b with sign := !(mulFront a b).sign } := by
  simp only [mulFront, prep_neg8 a ha, Bool.not_xor]

/-- Negating the dividend flips the sign of DIV's front end and nothing else (R152). -/
theorem divFront_neg8_left {a : Byte} (ha : isFiniteNonzero a = true) (b : Byte) :
    divFront (neg8 a) b = { divFront a b with sign := !(divFront a b).sign } := by
  simp only [divFront, prep_neg8 a ha, Bool.not_xor]

/-- Negating the divisor flips the sign of DIV's front end and nothing else (R152). -/
theorem divFront_neg8_right (a : Byte) {b : Byte} (hb : isFiniteNonzero b = true) :
    divFront a (neg8 b) = { divFront a b with sign := !(divFront a b).sign } := by
  simp only [divFront, prep_neg8 b hb, Bool.xor_not]

/-- Negating an operand negates the product: no line of the table tells a byte from its two's complement, the lines'
results are their own, and the back end applies the sign last (R123). -/
theorem mul_neg8_left (P : Params) (a b : Byte) : mul P (neg8 a) b = neg8 (mul P a b) := by
  simp only [mul, neg8_eq_zero_iff, neg8_eq_nar_iff]
  split_ifs with _ hnar hzero
  · exact (neg8_zeroNar P).symm
  · rfl
  · rfl
  · rw [mulFront_neg8_left ((isFiniteNonzero_iff _).mpr ⟨fun h => hzero (.inl h), fun h => hnar (.inl h)⟩),
      roundPack_not_sign]

/-- Negating the dividend negates the quotient (R123). -/
theorem div_neg8_left (P : Params) (a b : Byte) : div P (neg8 a) b = neg8 (div P a b) := by
  simp only [div, neg8_eq_zero_iff, neg8_eq_nar_iff]
  split_ifs with _ _ hnar hzero
  · rfl
  · exact (neg8_zeroNar P).symm
  · rfl
  · rfl
  · rw [divFront_neg8_left ((isFiniteNonzero_iff _).mpr ⟨hzero, fun h => hnar (.inl h)⟩), roundPack_not_sign]

/-- Negating the divisor negates the quotient (R123). -/
theorem div_neg8_right (P : Params) (a b : Byte) : div P a (neg8 b) = neg8 (div P a b) := by
  simp only [div, neg8_eq_zero_iff, neg8_eq_nar_iff]
  split_ifs with hzero _ hnar
  · rfl
  · exact (neg8_zeroNar P).symm
  · rfl
  · rfl
  · rw [divFront_neg8_right _ ((isFiniteNonzero_iff _).mpr ⟨hzero, fun h => hnar (.inr h)⟩), roundPack_not_sign]

/-- Settles O45: one lemma for each operand. -/
theorem divNegatesWithEitherOperand : Obligations.DivNegatesWithEitherOperand := by
  intro s a b
  exact ⟨div s.params a b, exec_div s a b, by rw [exec_div, div_neg8_left], by rw [exec_div, div_neg8_right]⟩

/-! ### Commutation -/

/-- Nothing in MUL's front end tells its operands apart (R142 to R144). -/
theorem mulFront_comm (a b : Byte) : mulFront a b = mulFront b a := by
  simp only [mulFront, max_comm (prep a).fl, Int.add_comm (prep a).k, Bool.xor_comm (prep a).sign,
    Nat.mul_comm ((prep a).sig <<< _)]

/-- Nor does the table (R123). -/
theorem mul_commutes (P : Params) (a b : Byte) : mul P a b = mul P b a := by
  have hfirst : (a = nar ∧ b = zero8) ∨ (a = zero8 ∧ b = nar) ↔ (b = nar ∧ a = zero8) ∨ (b = zero8 ∧ a = nar) := by
    rw [or_comm, and_comm, and_comm (a := a = nar)]
  simp only [mul, hfirst, or_comm (a := a = nar), or_comm (a := a = zero8), mulFront_comm a b]

/-- Settles O42: by `mul_commutes` and `mul_neg8_left`. -/
theorem mulCommutesAndNegates : Obligations.MulCommutesAndNegates := by
  intro s a b
  exact ⟨mul s.params a b, exec_mul s a b, by rw [exec_mul, mul_commutes], by rw [exec_mul, mul_neg8_left]⟩

/-- ADD's front end orders its operands by magnitude; of equal magnitudes that are no inverses the operands are equal
(R132). -/
theorem addFront_comm {a b : Byte} (hne : a ≠ neg8 b) : addFront a b = addFront b a := by
  have hmag (v : Byte) : (prep v).mag = magnitude v := rfl
  unfold addFront
  simp only [hmag]
  split_ifs with hba hab hab
  · have hmag : magnitude a = magnitude b := BitVec.eq_of_toNat_eq (hab.antisymm hba)
    have hsign : signBit a = signBit b := by
      by_contra hsign
      exact hne (eq_neg8_of_magnitude_eq hmag hsign)
    have heq : a = b := by rw [← withSign_magnitude a, ← withSign_magnitude b, hmag, hsign]
    rw [heq]
  · rfl
  · rfl
  · omega

/-- Exact inverses cancel among the finite non-zero bytes (R131). -/
theorem add_of_finite_inverse {a b : Byte} (ha : isFiniteNonzero a = true) (hb : isFiniteNonzero b = true)
    (h : a = neg8 b) : add a b = 0x00 := by
  obtain ⟨ha0, ha'⟩ := (isFiniteNonzero_iff a).mp ha
  obtain ⟨hb0, hb'⟩ := (isFiniteNonzero_iff b).mp hb
  exact add_of_inverse ha0 hb0 ha' hb' h

/-- ADD is commutative, its degenerate table included (R123). -/
theorem add_commutes (a b : Byte) : add a b = add b a := by
  obtain rfl | rfl | ha := byte_cases a
  · rw [add_zero_left, add_zero_right]
  · rw [add_sentinel_left, add_sentinel_right]
  obtain rfl | rfl | hb := byte_cases b
  · rw [add_zero_left, add_zero_right]
  · rw [add_sentinel_left, add_sentinel_right]
  have hinverse : a = neg8 b ↔ b = neg8 a := by rw [← neg8_eq_iff, eq_comm]
  by_cases hne : a = neg8 b
  · rw [add_of_finite_inverse ha hb hne, add_of_finite_inverse hb ha (hinverse.mp hne)]
  · rw [add_of_finite ha hb hne, add_of_finite hb ha (hinverse.not.mp hne), addFront_comm hne]

/-- The adder's alignment and raw operation look only at whether the signs agree (R134). -/
theorem addAligned_not_sign (L S : Prepared) :
    addAligned { L with sign := !L.sign } { S with sign := !S.sign } =
      { addAligned L S with sign := !(addAligned L S).sign } := by
  have hraw : addRaw { L with sign := !L.sign } { S with sign := !S.sign } = addRaw L S := by
    simp only [addRaw, Bool.not_inj_iff]
    rfl
  rw [addAligned_eq, addAligned_eq, hraw]
  rfl

/-- Negating both operands flips the sign of ADD's front end and nothing else (R132). -/
theorem addFront_neg8 {a b : Byte} (ha : isFiniteNonzero a = true) (hb : isFiniteNonzero b = true) :
    addFront (neg8 a) (neg8 b) = { addFront a b with sign := !(addFront a b).sign } := by
  unfold addFront
  rw [prep_neg8 a ha, prep_neg8 b hb]
  simp only [addAligned_not_sign]
  split <;> rfl

/-- Negating both operands negates the sum (R123). -/
theorem add_neg8_neg8 (a b : Byte) : add (neg8 a) (neg8 b) = neg8 (add a b) := by
  obtain rfl | rfl | ha := byte_cases a
  · rw [neg8_zero, add_zero_left, add_zero_left]
  · rw [neg8_sentinel, add_sentinel_left, add_sentinel_left, neg8_sentinel]
  obtain rfl | rfl | hb := byte_cases b
  · rw [neg8_zero, add_zero_right, add_zero_right]
  · rw [neg8_sentinel, add_sentinel_right, add_sentinel_right, neg8_sentinel]
  have ha' := (isFiniteNonzero_neg8 a).trans ha
  have hb' := (isFiniteNonzero_neg8 b).trans hb
  by_cases hne : a = neg8 b
  · rw [add_of_finite_inverse ha hb hne, add_of_finite_inverse ha' hb' (congrArg neg8 hne), neg8_zero]
  · have hne' : neg8 a ≠ neg8 (neg8 b) := fun h => hne (by rw [← neg8_neg8 a, h, neg8_neg8])
    rw [add_of_finite ha hb hne, add_of_finite ha' hb' hne', addFront_neg8 ha hb, roundPack_not_sign]

/-- Settles O39: by `add_commutes` and `add_neg8_neg8`. -/
theorem addCommutesAndNegates : Obligations.AddCommutesAndNegates := by
  intro s a b
  exact ⟨add a b, exec_add s a b, by rw [exec_add, add_commutes], by rw [exec_add, add_neg8_neg8]⟩

end Sys2Proof.Machine
end

section
/-! Exact results: a value of its own byte is the nearest posit, so 1 is a unit (45_multiply.md R146,
46_divide.md R156). -/

namespace Sys2Proof.Machine

/-- The magnitude byte nearest to its own value is itself (R122). -/
theorem eq_of_nearestMagnitude {M m : Byte} {y : ℚ} (hpos : 1 ≤ M.toNat) (hle : M.toNat ≤ 127)
    (hy : value M = some y) (hm : NearestMagnitude y m) : m = M := by
  have horder {u v : Byte} {x z : ℚ} (hu : value u = some x) (hv : value v = some z) (hu' : u.toNat ≤ 127)
      (hv' : v.toNat ≤ 127) : x < z ↔ u.toNat < v.toNat := by
    rw [valuesAreOrderedAsSignedBytes u v x z hu hv, BitVec.toInt_eq_toNat_of_lt (by omega),
      BitVec.toInt_eq_toNat_of_lt (by omega), Nat.cast_lt]
  unfold NearestMagnitude at hm
  split at hm
  · rename_i hlarge
    have hnot : ¬ 64 < y := by rw [horder value_maxPos hy (by decide) hle]; exact hle.not_gt
    rw [hm]
    exact value_injective value_maxPos (hy.trans (congrArg some (by linarith)))
  split at hm
  · rename_i hsmall
    have hnot : ¬ y < 1 / 64 := by rw [horder hy value_minPos hle (by decide)]; exact hpos.not_gt
    rw [hm]
    exact value_injective value_minPos (hy.trans (congrArg some (by linarith)))
  · obtain ⟨lo, hi, l, h, -, hhi, hhi', hl, hh, hly, hyh, rfl⟩ := hm
    unfold nearerOf
    by_cases hyl : y = l
    · rw [if_pos hyl]
      exact value_injective hl (hyl ▸ hy)
    by_cases hyh' : y = h
    · rw [if_neg hyl, if_pos hyh']
      exact value_injective hh (hyh' ▸ hy)
    have hlM := (horder hl hy (by omega) hle).mp (lt_of_le_of_ne hly (Ne.symm hyl))
    have hMh := (horder hy hh hle hhi').mp (lt_of_le_of_ne hyh hyh')
    omega

/-- The posit nearest to a finite non-zero byte's value is that byte (R122). -/
theorem eq_of_nearestPosit {p q : Byte} {x : ℚ} (hp : isFiniteNonzero p = true) (hx : value p = some x)
    (hq : NearestPosit x q) : q = p := by
  obtain ⟨m, hm, rfl⟩ := hq
  obtain ⟨hpos, hle⟩ := magnitude_range p hp
  have hvalue : 0 < prepValue p := prepValue_pos hp
  obtain ⟨habs, hsign⟩ := abs_signed hvalue (prep p).sign
  rw [eq_signed_prepValue hp hx] at hm ⊢
  obtain rfl := eq_of_nearestMagnitude hpos hle (value_magnitude hp) (habs ▸ hm)
  calc _ = withSign (decide (signed (prep p).sign (prepValue p) < 0)) (magnitude p) := by
        simp only [withSign, decide_eq_true_eq]
    _ = p := by rw [hsign, prep_sign hp, withSign_magnitude]

/-- 0x40 stands for 1 (R54). -/
theorem value_one : value 0x40 = some 1 := by decide +kernel

/-- 1 is a right unit of MUL, for zero and the sentinel by the table (R146). -/
theorem mul_one_right (P : Params) (p : Byte) : mul P p 0x40 = p := by
  obtain rfl | rfl | hp := byte_cases p
  · exact mul_of_zero P (by decide) (by decide) (.inl rfl)
  · exact mul_of_sentinel P (by decide) (by decide) (.inl rfl)
  · have hx := value_prep p hp
    have hnearest := nearestPosit_mul P hp (by decide) hx value_one
    rw [mul_one] at hnearest
    exact eq_of_nearestPosit hp hx hnearest

/-- 1 is a right unit of DIV, for zero and the sentinel by the table (R156). -/
theorem div_one_right (P : Params) (p : Byte) : div P p 0x40 = p := by
  obtain rfl | rfl | hp := byte_cases p
  · exact div_zero_left P (by decide) (by decide)
  · exact div_of_sentinel P (by decide) (by decide) (.inl rfl)
  · have hx := value_prep p hp
    have hnearest := nearestPosit_div P hp (by decide) hx value_one
    rw [div_one] at hnearest
    exact eq_of_nearestPosit hp hx hnearest

/-- A finite non-zero byte divided by itself is 1 (R156). -/
theorem div_self_of_finite (P : Params) {p : Byte} (hp : isFiniteNonzero p = true) : div P p p = 0x40 := by
  have hx : value p = some (signed (prep p).sign (prepValue p)) := value_prep p hp
  have hpos : 0 < prepValue p := prepValue_pos hp
  have hne : signed (prep p).sign (prepValue p) ≠ 0 := abs_pos.mp (by rwa [(abs_signed hpos _).1])
  have hnearest := nearestPosit_div P hp hp hx hx
  rw [div_self hne] at hnearest
  exact eq_of_nearestPosit (by decide) value_one hnearest

/-- Settles O46: the left unit of MUL is the right one by commutation. -/
theorem oneIsTheUnitOfMulAndDiv : Obligations.OneIsTheUnitOfMulAndDiv := by
  intro s p
  simp only [exec_mul, exec_div, mul_commutes s.params 0x40 p, mul_one_right, div_one_right]
  exact ⟨trivial, trivial, trivial, fun hp => by rw [div_self_of_finite _ hp]⟩

end Sys2Proof.Machine
end

section
/-! What SIGMOID does to values (47_sigmoid.md R161, R162). -/

namespace Sys2Proof.Machine

/-- A byte with bit 7 set keeps bits 6:2 of itself (R161). -/
theorem sigmoid_of_set (v : Byte) : v.getLsbD 7 = true →
    128 ≤ v.toNat ∧ (sigmoid v).toNat = v.toNat % 128 / 4 ∧ (sigmoid v).toInt = ((v.toNat % 128 / 4 : Nat) : Int) := by
  revert v; decide +kernel

/-- A byte with bit 7 clear keeps bits 6:2 of itself below three ones (R161). -/
theorem sigmoid_of_clear (v : Byte) : v.getLsbD 7 = false →
    v.toNat < 128 ∧ (sigmoid v).toNat = 0xE0 + v.toNat / 4 ∧
      (sigmoid v).toInt = ((v.toNat / 4 : Nat) : Int) - 32 := by
  revert v; decide +kernel

/-- SIGMOID's byte is close enough to zero to count units of 2^-6 (R162). -/
theorem value_sigmoid (v : Byte) : value (sigmoid v) = some (((sigmoid v).toInt : ℚ) / 64) := by
  have hv := v.isLt
  have hrange : -64 ≤ (sigmoid v).toInt ∧ (sigmoid v).toInt ≤ 64 := by
    cases hbit : v.getLsbD 7 with
    | true => obtain ⟨-, -, htoInt⟩ := sigmoid_of_set v hbit; omega
    | false => obtain ⟨-, -, htoInt⟩ := sigmoid_of_clear v hbit; omega
  have hnar : sigmoid v ≠ 0x80 := fun h => absurd (h ▸ hrange.1) (by decide)
  rw [value_eq_sixtyFourths hnar, sixtyFourths_eq_toInt _ hrange.1 hrange.2]

/-- Settles O48: the byte counts units of 2^-6, from 0 up where bit 7 is set, from -32 up where it is clear. -/
theorem sigmoidMapsNegativesUpAndTheRestBelowZero :
    Obligations.SigmoidMapsNegativesUpAndTheRestBelowZero := by
  intro s v
  have hv := v.isLt
  have hunits {m n : Int} (h : m ≤ n) : (m : ℚ) / 64 ≤ (n : ℚ) / 64 := by gcongr
  refine ⟨sigmoid v, _, exec_sigmoid s v, value_sigmoid v, fun hset => ?_, fun hclear => ?_, fun w hset hset' hle => ?_⟩
  · obtain ⟨-, htoNat, htoInt⟩ := sigmoid_of_set v hset
    have hlow := hunits (by omega : 0 ≤ (sigmoid v).toInt)
    have hhigh := hunits (by omega : (sigmoid v).toInt ≤ 31)
    norm_num at hlow hhigh ⊢
    exact ⟨hlow, hhigh, htoNat⟩
  · obtain ⟨-, htoNat, htoInt⟩ := sigmoid_of_clear v hclear
    have hlow := hunits (by omega : -32 ≤ (sigmoid v).toInt)
    have hhigh := hunits (by omega : (sigmoid v).toInt ≤ -1)
    refine ⟨by norm_num at hlow ⊢; exact hlow, by norm_num at hhigh ⊢; exact hhigh, htoNat⟩
  · obtain ⟨hv128, -, htoInt⟩ := sigmoid_of_set v hset
    obtain ⟨hw128, -, htoInt'⟩ := sigmoid_of_set w hset'
    have hw := w.isLt
    exact ⟨sigmoid w, _, exec_sigmoid s w, value_sigmoid w, hunits (by omega)⟩

end Sys2Proof.Machine
end
